-- ==== Sys2Proof/Config.lean ====
section
/-! DEFINITION. The configuration of the core: the seven constants of rule R6, which no operation reads as data and none
writes (R25), and the parameters the source leaves open (R7). -/

namespace Sys2Proof

/-- The configuration record `Cfg` of rule R6, the timings in microseconds. Every rule reads these names, never a literal. -/
structure Cfg where
  /-- LOW_PULSE_US: centre of the short-pulse band (R104). -/
  lowPulseUs : Nat
  /-- HIGH_PULSE_US: centre of the long-pulse band (R105). -/
  highPulseUs : Nat
  /-- TOLERANCE_US: half width of both bands (R104, R105). -/
  toleranceUs : Nat
  /-- LOCK_THRESHOLD_US: a longer gap seen while UNLOCKED locks (R102). -/
  lockThresholdUs : Nat
  /-- HIGH_FAIL_US: a longer duration seen while LOCKED aborts (R103). -/
  highFailUs : Nat
  /-- LOW_FAIL_US: a shorter duration seen while LOCKED aborts (R103). -/
  lowFailUs : Nat
  /-- PACKET_LENGTH: bits of a packet (R23, R121, R125, R126). -/
  packetLength : Nat
  deriving DecidableEq, Repr

/-- TS_WIDTH (R7, decision D2): bits of a timestamp and of a duration. DESIGN CHOICE of the spec, log entry 1. -/
abbrev Config.tsWidth : Nat := 32

/-- PACKET_LENGTH's default value (R6), the only one for which the source gives a field map (R161, decision D27). The width
of the bit buffer and of the frame word, and the index the frame-complete check waits for. -/
abbrev Config.packetLength : Nat := 44

/-- The default configuration: the values of the table of rule R6. -/
def Config.default : Cfg where
  lowPulseUs := 550
  highPulseUs := 1300
  toleranceUs := 100
  lockThresholdUs := 5000
  highFailUs := 2000
  lowFailUs := 200
  packetLength := Config.packetLength

/-- STEP_BUDGET (R7, R230, decision D26): the longest time one edge step may take, in microseconds. The spec leaves it OPEN,
so it has no value here. No rule of behaviour reads it (R231); the requirement on it is `Safety.meetsBudget Config.stepBudgetUs`. -/
opaque Config.stepBudgetUs : Nat

end Sys2Proof
end

