-- ==== Sys2Proof/Word.lean ====
section
/-! DEFINITION. The words and the small data types of the core: timestamps, phases, levels, symbols, edge events, the field
record, readings and output events. Their codes stand in Decode.lean and in Machine/Operands.lean. -/

namespace Sys2Proof

/-- A timestamp or a duration in microseconds, TS_WIDTH bits, unsigned (R24, R100). -/
abbrev Timestamp := BitVec Config.tsWidth

/-- The BitBuffer: PACKET_LENGTH one-bit cells (R20, R23). Cell `i` is bit `i` of the vector (log entry 4). -/
abbrev BitBuffer := BitVec Config.packetLength

/-- A 4-bit field (R10). -/
abbrev Nibble := BitVec 4

/-- The input event word EVT: TS_WIDTH + 1 bits (R70). -/
abbrev EventWord := BitVec (Config.tsWidth + 1)

/-- The synchronizer's phase (R21). -/
inductive Phase where
  | unlocked
  | locked
  deriving DecidableEq, Repr

/-- The line level after an edge (R71): `low` is the Boolean false, `high` the Boolean true. -/
inductive Level where
  | low
  | high
  deriving DecidableEq, Repr

/-- The classifier's output (R72). The reserved codes of R73 have no constructor. -/
inductive Symbol where
  | ignored
  | lockSync
  | bitZero
  | bitOne
  | abort
  deriving DecidableEq, Repr

/-- A RawEdgeEvent (R26): the time of the transition and the level observed immediately after it. -/
structure EdgeEvent where
  ts : Timestamp
  level : Level
  deriving DecidableEq, Repr

/-- What the host applies to the core: one edge event, presented as its word EVT (R70), or the reset input (R220). -/
inductive Input where
  | edge (evt : EventWord)
  | reset
  deriving DecidableEq, Repr

/-- The decoder's output (R160): the nine fields of the map of R76. -/
structure FieldRecord where
  initByte : BitVec 8
  measureKind : Nibble
  deviceId : BitVec 7
  parityBit : BitVec 1
  tensDigit : Nibble
  onesDigit : Nibble
  tenthsDigit : Nibble
  redundancy : BitVec 8
  checksumNibble : Nibble
  deriving DecidableEq, Repr

/-- The unit tag of a reading (R80). -/
inductive ReadingUnit where
  | unrecognized
  | fahrenheit
  | percent
  deriving DecidableEq, Repr

/-- A reading: its unit and its exact value in hundredths of the unit (R174). -/
structure Reading where
  unit : ReadingUnit
  value100 : Int
  deriving DecidableEq, Repr

/-- An output event of an edge step (R27). -/
inductive OutEvent where
  | frame (r : FieldRecord)
  | reading (v : Reading)
  deriving DecidableEq, Repr

end Sys2Proof
end

