-- ==== Sys2Proof/Syntax.lean ====
section
/-! DEFINITION. The operations of the core: one constructor for each of the eleven rows of spec/opcode_table.json (R84). -/

namespace Sys2Proof

/-- The operations of the table. The core has no instruction stream (R30, R60): the six transition rows are selected by
{phase, symbol}, FRAME_COMPLETE by {phase, bitIndex}, RESET by the reset input and the last three by measureKind. -/
inductive Instr where
  /-- LOCK: (UNLOCKED, LOCK_SYNC), rule R123. -/
  | lock
  /-- IDLE_UNLOCKED: (UNLOCKED, IGNORED), rule R124. -/
  | idleUnlocked
  /-- APPEND_ONE: (LOCKED, BIT_ONE), rule R125. -/
  | appendOne
  /-- APPEND_ZERO: (LOCKED, BIT_ZERO), rule R126. -/
  | appendZero
  /-- ABORT: (LOCKED, ABORT), rule R127. -/
  | abort
  /-- IDLE_LOCKED: (LOCKED, IGNORED), rule R128. -/
  | idleLocked
  /-- FRAME_COMPLETE: the check at the start of every edge step, rule R121. -/
  | frameComplete
  /-- RESET: the reset input, rule R220. -/
  | reset
  /-- TEMPERATURE: measureKind 0, rule R171. -/
  | temperature
  /-- HUMIDITY: measureKind 14, rule R172. -/
  | humidity
  /-- UNRECOGNIZED: any other measureKind, rule R173; the row matches fourteen values and `kind` says which. -/
  | unrecognized (kind : Nibble)
  deriving DecidableEq, Repr

end Sys2Proof
end

