-- ==== Sys2Proof/WellFormed.lean ====
section
/-! DEFINITION. The checks on operations and on configurations. -/

namespace Sys2Proof

/-- measureKind values that select TEMPERATURE or HUMIDITY (R77). -/
def recognizedKind (kind : Nibble) : Bool := kind == 0 || kind == 14

/-- A well-formed operation: UNRECOGNIZED carries one of the values 1..13 and 15 (R77, R173). -/
def Instr.wf : Instr → Bool
  | .lock | .idleUnlocked | .appendOne | .appendZero | .abort | .idleLocked => true
  | .frameComplete | .reset | .temperature | .humidity => true
  | .unrecognized kind => !recognizedKind kind

/-- A configuration the model accepts: the decoder's field map is fixed for PACKET_LENGTH = 44, and any other value is
refused (R6, R161, decision D27). -/
def Cfg.wf (cfg : Cfg) : Bool := cfg.packetLength == Config.packetLength

end Sys2Proof
end

