-- ==== Sys2Proof/Decode.lean ====
section
/-! DEFINITION. The operation decoder: the four formats of rule R84, each word given as one byte, and the encoder written
from the same table. Every word that is no row is rejected by name. The packet's field decoder (R150 to R160) is an operand
computation and stands in Machine/Operands.lean. -/

namespace Sys2Proof

/-- The four formats of spec/opcode_table.json (R84). -/
inductive Format where
  /-- the 4-bit selector {phase[3], symbol[2:0]} -/
  | phaseSymbol
  /-- the 7-bit word {phase[6], bitIndex[5:0]} -/
  | stateCheck
  /-- the reset input -/
  | reset
  /-- the 4-bit field measureKind -/
  | measureKind
  deriving DecidableEq, Repr

/-- Why a word is no row of its format. -/
inductive DecodeError where
  /-- symbol codes 101, 110 and 111 are reserved (R73) -/
  | reservedSymbol (code : BitVec 3)
  /-- a pair the classifier never yields (R129) -/
  | unreachablePair (phase : Phase) (sym : Symbol)
  /-- the state-check word is not {LOCKED, 44}: no frame is complete (R121) -/
  | frameNotComplete (word : BitVec 7)
  /-- the reset input is not asserted -/
  | resetNotAsserted
  /-- a bit above the format's width is set: no such word exists in the format -/
  | tooWide (word : BitVec 8)
  deriving DecidableEq, Repr

/-- Bits of a word of the format (R84). -/
def Format.width : Format → Nat
  | .phaseSymbol => 4
  | .stateCheck => 7
  | .reset => 1
  | .measureKind => 4

/-- The phase code: UNLOCKED = 0, LOCKED = 1 (R21, decision D10). -/
def Phase.bit : Phase → BitVec 1
  | .unlocked => 0
  | .locked => 1

/-- The phase a code stands for (R21). -/
def Phase.ofBit (b : BitVec 1) : Phase := if b = 1 then .locked else .unlocked

/-- The 3-bit symbol codes (R72, decision D9). -/
def Symbol.code : Symbol → BitVec 3
  | .ignored => 0b000
  | .lockSync => 0b001
  | .bitZero => 0b010
  | .bitOne => 0b011
  | .abort => 0b100

/-- The symbol a code stands for; 101, 110 and 111 are reserved and give none (R73, decision D30). -/
def Symbol.ofCode (c : BitVec 3) : Option Symbol :=
  if c = 0b000 then some .ignored
  else if c = 0b001 then some .lockSync
  else if c = 0b010 then some .bitZero
  else if c = 0b011 then some .bitOne
  else if c = 0b100 then some .abort
  else none

/-- The operation map of rule R74: the transition the pair (phase, symbol) selects. The four unreachable cells are refused
(R129). -/
def transitionOf : Phase → Symbol → Except DecodeError Instr
  | .unlocked, .lockSync => .ok .lock
  | .unlocked, .ignored => .ok .idleUnlocked
  | .unlocked, .bitOne => .error (.unreachablePair .unlocked .bitOne)
  | .unlocked, .bitZero => .error (.unreachablePair .unlocked .bitZero)
  | .unlocked, .abort => .error (.unreachablePair .unlocked .abort)
  | .locked, .bitOne => .ok .appendOne
  | .locked, .bitZero => .ok .appendZero
  | .locked, .abort => .ok .abort
  | .locked, .ignored => .ok .idleLocked
  | .locked, .lockSync => .error (.unreachablePair .locked .lockSync)

/-- The 4-bit selector {phase[3], symbol[2:0]} (R84). -/
def decodePhaseSymbol (w : BitVec 4) : Except DecodeError Instr :=
  match Symbol.ofCode (w.extractLsb' 0 3) with
  | none => .error (.reservedSymbol (w.extractLsb' 0 3))
  | some sym => transitionOf (Phase.ofBit (w.extractLsb' 3 1)) sym

/-- The 7-bit word {phase[6], bitIndex[5:0]}; its one row is 1101100, LOCKED with bitIndex 44 (R84, R121). -/
def decodeStateCheck (w : BitVec 7) : Except DecodeError Instr :=
  if w = 0b1101100 then .ok .frameComplete else .error (.frameNotComplete w)

/-- The reset input: asserted or not (R84, R220). -/
def decodeReset (w : BitVec 1) : Except DecodeError Instr :=
  if w = 1 then .ok .reset else .error .resetNotAsserted

/-- The 4-bit field measureKind: no value is illegal (R77). -/
def decodeMeasureKind (w : Nibble) : Except DecodeError Instr :=
  if w = 0b0000 then .ok .temperature
  else if w = 0b1110 then .ok .humidity
  else .ok (.unrecognized w)

/-- The operation a byte stands for in a format: total, with every word that is no row rejected by name. A set bit above the
format's width is a rejection of its own. -/
def decode (f : Format) (b : BitVec 8) : Except DecodeError Instr :=
  if b.toNat < 2 ^ f.width then
    match f with
    | .phaseSymbol => decodePhaseSymbol (b.extractLsb' 0 4)
    | .stateCheck => decodeStateCheck (b.extractLsb' 0 7)
    | .reset => decodeReset (b.extractLsb' 0 1)
    | .measureKind => decodeMeasureKind (b.extractLsb' 0 4)
  else .error (.tooWide b)

/-- The format of an operation's row (R84). -/
def Instr.format : Instr → Format
  | .lock | .idleUnlocked | .appendOne | .appendZero | .abort | .idleLocked => .phaseSymbol
  | .frameComplete => .stateCheck
  | .reset => .reset
  | .temperature | .humidity | .unrecognized _ => .measureKind

/-- The word of an operation's row, as the column "encoding" of spec/opcode_table.json writes it. -/
def encode : Instr → BitVec 8
  | .lock => 0b0001
  | .idleUnlocked => 0b0000
  | .appendOne => 0b1011
  | .appendZero => 0b1010
  | .abort => 0b1100
  | .idleLocked => 0b1000
  | .frameComplete => 0b1101100
  | .reset => 0b1
  | .temperature => 0b0000
  | .humidity => 0b1110
  | .unrecognized kind => kind.zeroExtend 8

/-- The operation as an option, for a caller that needs no reason. -/
def decode? (f : Format) (w : Nat) : Option Instr :=
  match decode f (BitVec.ofNat 8 w) with
  | .ok i => if w < 2 ^ f.width then some i else none
  | .error _ => none

/-- The host's entry: the row a bare word of spec/opcode_table.json stands for. The table's four formats reuse the same small
numbers (0000 is IDLE_UNLOCKED and TEMPERATURE, 1 is LOCK, RESET and an UNRECOGNIZED kind) and a bare word does not say its
format. A width of 7 or of 1 names the format; for any other width the formats are tried in the order in which an edge step
uses them (R84): state_check, phase_symbol, measureKind. DESIGN CHOICE, log entry 25. -/
def decodeTableWord (nbits w : Nat) : Option Instr :=
  if nbits = 1 then decode? .reset w
  else if nbits = 7 then decode? .stateCheck w
  else
    match decode? .stateCheck w with
    | some i => some i
    | none =>
      match decode? .phaseSymbol w with
      | some i => some i
      | none => decode? .measureKind w

end Sys2Proof
end

