-- ==== Sys2Proof/Machine/State.lean ====
section
/-! DEFINITION. The state of the core (R20, R28), the model's own input queue and output list, the reasons a step can be
refused, and the state after reset (R34, R220). -/

namespace Sys2Proof.Machine

/-- The state. The first four fields are the record of R20 and `lastSym` is the observation register of R28. `inputs` and `out`
are the model's own: what the host has still to deliver (R26, log entry 14) and the output list of the last step (R27, log
entry 13). Configuration is not state (R25). -/
structure State where
  /-- The synchronizer's phase (R21). -/
  phase : Phase
  /-- Number of bits received since the last lock, held in 6 bits (R22). -/
  bitIndex : BitVec 6
  /-- The BitBuffer (R23). -/
  buf : BitBuffer
  /-- Timestamp of the previous edge event (R24). -/
  prevTs : Timestamp
  /-- Symbol of the last edge step; no rule of behaviour reads it (R28). -/
  lastSym : Symbol
  /-- What the host will apply next, first to come first (R26, R222). -/
  inputs : List Input
  /-- Output events of the last step, in order (R27). -/
  out : List OutEvent
  deriving DecidableEq, Repr

/-- The core has no exceptions and no faulting outcome: "every input event leads to a next state" (R200). So there is no
reason to fault, and a step that answered a fault could not be written. -/
inductive Fault where
  deriving DecidableEq, Repr

/-- Why an operation is refused. No step under an accepted configuration meets one of these: they say what an operation, or a
configuration, answers outside the place where the spec gives it a meaning. -/
inductive Refusal where
  /-- An operation without a meaning yet; exec's arm would raise it. Safe. No arm does. -/
  | notModelled (mnemonic : String)
  /-- Raised by the six transition rows: the row's selector names one phase and the state is in the other, so the row is not
  selected there; "a model that takes the symbol as a free input must refuse these pairs" (R129, R84). Safe. -/
  | rowNotSelected (row : Phase) (sym : Symbol)
  /-- Raised by FRAME_COMPLETE and the three interpreter rows where no frame is complete: "partial or anomalously terminated
  buffers never reach the Decoder" (R52, R161). Safe. -/
  | frameNotComplete
  /-- Raised by the three interpreter rows on a record whose measureKind selects another row (R77, R84). Safe. -/
  | kindNotSelected (row : Nibble) (record : Nibble)
  /-- Raised by UNRECOGNIZED when its operand is 0 or 14, an ill-formed operation (R173). Safe. -/
  | recognizedKind (kind : Nibble)
  /-- Raised by the step when a selector word is no row (R73, R129). The classifier never produces one (R109). Safe. -/
  | noRow (e : DecodeError)
  /-- Raised by the step under a configuration whose PACKET_LENGTH has no field map (R161, decision D27). Safe. -/
  | packetLength (n : Nat)
  deriving DecidableEq, Repr

/-- The core right after reset: the values of the table of R34. Nothing is waiting at the input: the host has delivered no
event yet. -/
def State.reset : State where
  phase := .unlocked
  bitIndex := 0
  buf := 0
  prevTs := 0
  lastSym := .ignored
  inputs := []
  out := []

/-- Set `phase`. -/
def State.setPhase (s : State) (v : Phase) : State := { s with phase := v }
/-- Set `bitIndex`. -/
def State.setBitIndex (s : State) (v : BitVec 6) : State := { s with bitIndex := v }
/-- Set `buf`. -/
def State.setBuf (s : State) (v : BitBuffer) : State := { s with buf := v }
/-- Set `prevTs`. -/
def State.setPrevTs (s : State) (v : Timestamp) : State := { s with prevTs := v }
/-- Set `lastSym`. -/
def State.setLastSym (s : State) (v : Symbol) : State := { s with lastSym := v }
/-- Set `inputs`. -/
def State.setInputs (s : State) (v : List Input) : State := { s with inputs := v }
/-- Set `out`. -/
def State.setOut (s : State) (v : List OutEvent) : State := { s with out := v }

/-- A step's outcome on this machine. -/
abbrev Result := Host.Outcome State Fault Refusal

end Sys2Proof.Machine
end

