-- ==== Sys2Proof/Machine/Ops.lean ====
section
/-! DEFINITION. The shared operations over the state: the cells of the bit buffer (R50, R51), lock acquisition, append and
release of a frame, the output list (R27) and the observation ports (R28). The core takes no exceptions and returns from none
(R200), so there is no operation for either. -/

namespace Sys2Proof.Machine

/-- Run `k` on the next state of `r`; a fault or a refusal stays as it is. -/
def andThen (r : Result) (k : State → Result) : Result :=
  match r with
  | .next s => k s
  | .fault e => .fault e
  | .refused e => .refused e

/-- Cell `i` of the buffer: position 0 is the earliest-received bit (R23, R54). -/
def cell (buf : BitBuffer) (i : Nat) : Bool := buf.getLsbD i

/-- The buffer with cell `i` holding `b` and every other cell as it was (R51). -/
def setCell (buf : BitBuffer) (i : Nat) (b : Bool) : BitBuffer :=
  if b then buf ||| ((1 : BitBuffer) <<< i) else buf &&& ~~~((1 : BitBuffer) <<< i)

/-- The buffer with every cell 0: "cleared (not merely overwritten)" (R23, R123). -/
def clearedBuffer : BitBuffer := 0

/-- Lock acquisition: `phase <- LOCKED; bitIndex <- 0; buf <- 0^44` (R123, R134). -/
def lockFrame (s : State) : State :=
  ((s.setPhase .locked).setBitIndex 0).setBuf clearedBuffer

/-- `Append(b)` of R120, with its guard: the only path that grows the buffer (R125, R126, R51). -/
def appendBit (b : Bool) (s : State) : State :=
  if s.bitIndex.toNat < Config.packetLength then
    (s.setBuf (setCell s.buf s.bitIndex.toNat b)).setBitIndex (s.bitIndex + 1)
  else s

/-- `phase <- UNLOCKED`, with bitIndex and buf as they were (R121, R127; decisions D6, D7). -/
def releaseFrame (s : State) : State := s.setPhase .unlocked

/-- Append an output event to the step's output (R8, R27). -/
def emit (e : OutEvent) (s : State) : State := s.setOut (s.out ++ [e])

/-- What the observation ports show (R28). -/
structure Observation where
  phase : Phase
  bitIndex : BitVec 6
  lastSym : Symbol
  deriving DecidableEq, Repr

/-- The observation ports: the current phase, the current bitIndex and the last step's symbol (R28, decision D23). -/
def observe (s : State) : Observation where
  phase := s.phase
  bitIndex := s.bitIndex
  lastSym := s.lastSym

end Sys2Proof.Machine
end

