-- ==== Sys2Proof/Machine/Operands.lean ====
section
/-! DEFINITION. The operands of the operations and the words on the ports: the event word (R70), the duration (R100), the
field primitive and the packet's field map (R150 to R160), the frame word (R79) and the reading word (R81). -/

namespace Sys2Proof.Machine

/-- The level code: 0 is low, 1 is high (R71, decision D13). -/
def levelBit : Level → BitVec 1
  | .low => 0
  | .high => 1

/-- The level a code stands for (R71). -/
def levelOfBit (b : BitVec 1) : Level := if b = 1 then .high else .low

/-- The event word EVT: the level in bit TS_WIDTH, the timestamp below it (R70). -/
def encodeEvent (e : EdgeEvent) : EventWord := levelBit e.level ++ e.ts

/-- The event an EVT word carries; every word carries one (R70, R82). -/
def decodeEvent (w : EventWord) : EdgeEvent where
  ts := w.extractLsb' 0 Config.tsWidth
  level := levelOfBit (w.extractLsb' Config.tsWidth 1)

/-- The duration: the microseconds since the previous edge, modulo 2^TS_WIDTH (R100). -/
def duration (ts prevTs : Timestamp) : Timestamp := ts - prevTs

/-- `Extract(buf, start, width)`: `buf[start]` is the most significant bit and `buf[start+width-1]` the least (R150). -/
def extract (buf : BitBuffer) (start : Nat) : Nat → Nat
  | 0 => 0
  | width + 1 => 2 * extract buf start width + (cell buf (start + width)).toNat

/-- `Decode(buf)`: the nine fields at their positions (R76, R151 to R160). Total; nothing is validated (R162). -/
def decodeFields (buf : BitBuffer) : FieldRecord where
  initByte := BitVec.ofNat 8 (extract buf 0 8)
  measureKind := BitVec.ofNat 4 (extract buf 8 4)
  deviceId := BitVec.ofNat 7 (extract buf 12 7)
  parityBit := BitVec.ofNat 1 (extract buf 19 1)
  tensDigit := BitVec.ofNat 4 (extract buf 20 4)
  onesDigit := BitVec.ofNat 4 (extract buf 24 4)
  tenthsDigit := BitVec.ofNat 4 (extract buf 28 4)
  redundancy := BitVec.ofNat 8 (extract buf 32 8)
  checksumNibble := BitVec.ofNat 4 (extract buf 40 4)

/-- The frame word FR of a record: initByte in FR[43:36] down to checksumNibble in FR[3:0] (R79, decision D31). -/
def frameWord (r : FieldRecord) : BitVec Config.packetLength :=
  r.initByte ++ r.measureKind ++ r.deviceId ++ r.parityBit ++ r.tensDigit ++ r.onesDigit ++ r.tenthsDigit ++
    r.redundancy ++ r.checksumNibble

/-- The first `n` cells of the buffer whose frame word is `fr`: position `i` is FR bit 43 - i (R79). -/
def cellsOfWord (fr : BitVec Config.packetLength) : Nat → BitBuffer
  | 0 => clearedBuffer
  | n + 1 => setCell (cellsOfWord fr n) n (fr.getLsbD (Config.packetLength - 1 - n))

/-- The packet that carries a record: the buffer that `decodeFields` reads as `r` (R79, R160). -/
def encodeFields (r : FieldRecord) : BitBuffer := cellsOfWord (frameWord r) Config.packetLength

/-- `dv10 = 100·tensDigit + 10·onesDigit + tenthsDigit`, in ℤ; a nibble above 9 counts at its unsigned value (R170, R176). -/
def dv10 (r : FieldRecord) : Int :=
  100 * (r.tensDigit.toNat : Int) + 10 * (r.onesDigit.toNat : Int) + (r.tenthsDigit.toNat : Int)

/-- The unit codes (R80, decision D11). -/
def unitCode : ReadingUnit → BitVec 2
  | .unrecognized => 0b00
  | .fahrenheit => 0b01
  | .percent => 0b10

/-- The unit a code stands for; 11 is reserved and gives none (R80, decision D30). -/
def unitOfCode (c : BitVec 2) : Option ReadingUnit :=
  if c = 0b00 then some .unrecognized
  else if c = 0b01 then some .fahrenheit
  else if c = 0b10 then some .percent
  else none

/-- The reading word RD: the unit code in RD[17:16], value100 as a signed 16-bit number in RD[15:0] (R81, decision D15). -/
def readingWord (v : Reading) : BitVec 18 := unitCode v.unit ++ BitVec.ofInt 16 v.value100

end Sys2Proof.Machine
end

