-- ==== Sys2Proof/Machine/Flags.lean ====
section
/-! DEFINITION. The conditions that steer the core. It has no flags or condition codes apart from the phase (R31): what
stands here is the frame-complete condition, the phase a transition row asks for, and the selector words (R84). -/

namespace Sys2Proof.Machine

/-- The frame-complete condition: `phase = LOCKED and bitIndex = PACKET_LENGTH` (R121). -/
def frameReady (s : State) : Bool := s.phase == .locked && s.bitIndex.toNat == Config.packetLength

/-- The word of the state check, {phase[6], bitIndex[5:0]}, as a byte (R84). -/
def stateCheckWord (s : State) : BitVec 8 := (0 : BitVec 1) ++ s.phase.bit ++ s.bitIndex

/-- The selector of a transition, {phase[3], symbol[2:0]}, as a byte (R84). -/
def selectorWord (phase : Phase) (sym : Symbol) : BitVec 8 := (0 : BitVec 4) ++ phase.bit ++ sym.code

/-- The measureKind field as a byte (R84). -/
def kindWord (kind : Nibble) : BitVec 8 := kind.zeroExtend 8

/-- Run a transition row, which stands for the pair (phase, sym): in that phase it takes `s` to `f s`; in the other phase the
row is not selected and is refused (R84, R129). -/
def inPhase (phase : Phase) (sym : Symbol) (f : State → State) (s : State) : Result :=
  if s.phase = phase then .next (f s) else .refused (.rowNotSelected phase sym)

end Sys2Proof.Machine
end

