-- ==== Sys2Proof/Machine/Classifier.lean ====
section
/-! DEFINITION. The pulse classifier (R101 to R109): a pure function of the duration, the level and the phase. -/

namespace Sys2Proof.Machine

/-- The closed band `centre ± tolerance`, its limits computed in ℤ (R101). -/
def inBand (centre tolerance : Nat) (d : Timestamp) : Bool :=
  decide ((centre : Int) - (tolerance : Int) ≤ (d.toNat : Int) ∧ (d.toNat : Int) ≤ (centre : Int) + (tolerance : Int))

/-- The condition of LOCK_SYNC on the duration (R102): "exceeds" is read as `>` (decision D28). -/
def exceedsLock (cfg : Cfg) (d : Timestamp) : Bool := decide (cfg.lockThresholdUs < d.toNat)

/-- The condition of ABORT on the duration (R103): "exceeds" is `>`, "below" is `<` (decision D28). -/
def beyondFailBounds (cfg : Cfg) (d : Timestamp) : Bool := decide (cfg.highFailUs < d.toNat ∨ d.toNat < cfg.lowFailUs)

/-- `Classify(d, level, phase)`: the rules in the source's order, the first that holds giving the symbol (R101 to R106). -/
def classify (cfg : Cfg) (d : Timestamp) (level : Level) (phase : Phase) : Symbol :=
  match phase with
  | .unlocked => if exceedsLock cfg d then .lockSync else .ignored
  | .locked =>
    if beyondFailBounds cfg d then .abort
    else
      match level with
      | .high => .ignored
      | .low =>
        if inBand cfg.lowPulseUs cfg.toleranceUs d then .bitOne
        else if inBand cfg.highPulseUs cfg.toleranceUs d then .bitZero
        else .ignored

end Sys2Proof.Machine
end

