-- ==== Sys2Proof/Machine/Reset.lean ====
section
/-! DEFINITION. The meaning of RESET (R220). -/

namespace Sys2Proof.Machine

/-- RESET: every state field takes its reset value and no output is pending (R220, R34). What the host has still to deliver is
the host's and stays (R221, log entry 15). -/
def execReset (s : State) : Result := .next (State.reset.setInputs s.inputs)

end Sys2Proof.Machine
end

