-- ==== Sys2Proof/Machine/Interpreter.lean ====
section
/-! DEFINITION. The value interpreter (R170 to R177) and the meanings of its three rows: TEMPERATURE, HUMIDITY and
UNRECOGNIZED. A row's operand is the record of the completed buffer, which is decoded where it is used: the core keeps no copy
of it (R163). -/

namespace Sys2Proof.Machine

/-- TEMPERATURE's value: `celsius10 <- dv10 - 500; value100 <- celsius10 * 18 + 3200` (R171). -/
def fahrenheit100 (dv : Int) : Int := (dv - 500) * 18 + 3200

/-- HUMIDITY's value: `value100 <- 10·dv10` (R172). -/
def percent100 (dv : Int) : Int := 10 * dv

/-- TEMPERATURE's reading of a record (R171). -/
def temperatureReading (r : FieldRecord) : Reading := ⟨.fahrenheit, fahrenheit100 (dv10 r)⟩

/-- HUMIDITY's reading of a record (R172). -/
def humidityReading (r : FieldRecord) : Reading := ⟨.percent, percent100 (dv10 r)⟩

/-- `Interpret(r)` of R177: the reading of a record, if it has one. -/
def interpret (r : FieldRecord) : Option Reading :=
  if r.measureKind = 0 then some (temperatureReading r)
  else if r.measureKind = 14 then some (humidityReading r)
  else none

/-- Run an interpreter row selected by `kind` on the record of the completed frame. The decoder reads a complete buffer only
(R52, R161), and a record of another kind selects another row (R77). -/
def onCompletedFrame (kind : Nibble) (f : FieldRecord → State → State) (s : State) : Result :=
  if frameReady s then
    let r := decodeFields s.buf
    if r.measureKind = kind then .next (f r s) else .refused (.kindNotSelected kind r.measureKind)
  else .refused .frameNotComplete

/-- TEMPERATURE: emit Reading(Fahrenheit, 18·dv10 - 5800) (R171). -/
def execTemperature (s : State) : Result :=
  onCompletedFrame 0 (fun r t => emit (.reading (temperatureReading r)) t) s

/-- HUMIDITY: emit Reading(Percent, 10·dv10) (R172). -/
def execHumidity (s : State) : Result :=
  onCompletedFrame 14 (fun r t => emit (.reading (humidityReading r)) t) s

/-- UNRECOGNIZED: no reading and no diagnostic (R173, R202). -/
def execUnrecognized (kind : Nibble) (s : State) : Result :=
  if recognizedKind kind then .refused (.recognizedKind kind)
  else onCompletedFrame kind (fun _ t => t) s

/-- The interpreter operation that measureKind selects (R77, R177): stage 4 of R84. -/
def runInterpreter (kind : Nibble) (s : State) : Result :=
  if kind = 0 then execTemperature s
  else if kind = 14 then execHumidity s
  else execUnrecognized kind s

end Sys2Proof.Machine
end

