-- ==== Sys2Proof/Machine/Synchronizer.lean ====
section
/-! DEFINITION. The frame synchronizer: the meanings of the six transition rows (R123 to R128) and of FRAME_COMPLETE (R121).
The timestamp and the observed symbol are the edge step's to write, not a row's (R100, R120). -/

namespace Sys2Proof.Machine

/-- LOCK, the transition (UNLOCKED, LOCK_SYNC) (R123). -/
def execLock (s : State) : Result := inPhase .unlocked .lockSync lockFrame s

/-- IDLE_UNLOCKED, the transition (UNLOCKED, IGNORED): no change (R124, decision D8). -/
def execIdleUnlocked (s : State) : Result := inPhase .unlocked .ignored (fun t => t) s

/-- APPEND_ONE, the transition (LOCKED, BIT_ONE) (R125). -/
def execAppendOne (s : State) : Result := inPhase .locked .bitOne (appendBit true) s

/-- APPEND_ZERO, the transition (LOCKED, BIT_ZERO) (R126). -/
def execAppendZero (s : State) : Result := inPhase .locked .bitZero (appendBit false) s

/-- ABORT, the transition (LOCKED, ABORT): the frame is abandoned, with no output and no diagnostic (R127, R201). -/
def execAbort (s : State) : Result := inPhase .locked .abort releaseFrame s

/-- IDLE_LOCKED, the transition (LOCKED, IGNORED): no change (R128). -/
def execIdleLocked (s : State) : Result := inPhase .locked .ignored (fun t => t) s

/-- FRAME_COMPLETE (R121, part (1) of R120): emit Frame(Decode(buf)), run the interpreter operation the record selects, then
`phase <- UNLOCKED`. Where the check does not hold there is no frame, and the row is refused (R161). -/
def execFrameComplete (s : State) : Result :=
  if frameReady s then
    let r := decodeFields s.buf
    andThen (runInterpreter r.measureKind (emit (.frame r) s)) fun t => .next (releaseFrame t)
  else .refused .frameNotComplete

end Sys2Proof.Machine
end

