-- ==== Sys2Proof/Machine/Dispatch.lean ====
section
/-! DEFINITION. One arm for each operation of the table. -/

namespace Sys2Proof.Machine

def exec (i : Instr) (s : State) : Host.Outcome State Fault Refusal :=
  match i with
  | .lock => Sys2Proof.Machine.execLock s
  | .idleUnlocked => Sys2Proof.Machine.execIdleUnlocked s
  | .appendOne => Sys2Proof.Machine.execAppendOne s
  | .appendZero => Sys2Proof.Machine.execAppendZero s
  | .abort => Sys2Proof.Machine.execAbort s
  | .idleLocked => Sys2Proof.Machine.execIdleLocked s
  | .frameComplete => Sys2Proof.Machine.execFrameComplete s
  | .reset => Sys2Proof.Machine.execReset s
  | .temperature => Sys2Proof.Machine.execTemperature s
  | .humidity => Sys2Proof.Machine.execHumidity s
  | .unrecognized kind => Sys2Proof.Machine.execUnrecognized kind s

end Sys2Proof.Machine
end

