-- ==== Sys2Proof/Machine/Edge.lean ====
section
/-! DEFINITION. The edge step (R120) over exec, the step on one input, and how an operation's word is placed so that the next
step runs it. -/

namespace Sys2Proof.Machine

/-- Run the operation a word stands for in a format; a word that is no row is refused (R73, R129). -/
def runRow (f : Format) (w : BitVec 8) (s : State) : Result :=
  match decode f w with
  | .ok i => exec i s
  | .error e => .refused (.noRow e)

/-- Part (1) of R120: the frame-complete check, made before the edge is classified (R121, R207). Where the check's word is no
row, no frame is complete and nothing happens. -/
def frameCheck (s : State) : Result :=
  match decode .stateCheck (stateCheckWord s) with
  | .ok i => exec i s
  | .error _ => .next s

/-- Parts (2) to (4) of R120: the duration, the classification with the phase left by part (1), the transition that (phase,
symbol) selects, and the observed symbol. -/
def classifyAndMove (cfg : Cfg) (e : EdgeEvent) (s : State) : Result :=
  let sym := classify cfg (duration e.ts s.prevTs) e.level s.phase
  andThen (runRow .phaseSymbol (selectorWord s.phase sym) (s.setPrevTs e.ts)) fun t => .next (t.setLastSym sym)

/-- The edge step of R120: `out <- []`, then the four parts in order. -/
def edgeStep (cfg : Cfg) (e : EdgeEvent) (s : State) : Result :=
  andThen (frameCheck (s.setOut [])) (classifyAndMove cfg e)

/-- One step under a configuration (R25): the next input, if there is one, is consumed whole (R57). With no input the core does
nothing and its state holds (R131, R213); such a step outputs nothing. A configuration without a field map is refused (R161). -/
def stepWith (cfg : Cfg) (s : State) : Result :=
  if cfg.wf then
    match s.inputs with
    | [] => .next (s.setOut [])
    | .edge w :: rest => edgeStep cfg (decodeEvent w) (s.setInputs rest)
    | .reset :: rest => runRow .reset 1 (s.setInputs rest)
  else .refused (.packetLength cfg.packetLength)

/-- `s` with an edge of this duration and level as the next input. -/
def placeEdge (s : State) (d : Nat) (level : Level) : State :=
  s.setInputs (.edge (encodeEvent ⟨s.prevTs + BitVec.ofNat Config.tsWidth d, level⟩) :: s.inputs)

/-- `s` LOCKED with room for one more bit, so that no frame-complete check fires first. -/
def placeLocked (s : State) : State :=
  let t := s.setPhase .locked
  if s.bitIndex.toNat < Config.packetLength then t else t.setBitIndex 0

/-- `s` with a complete frame pending. -/
def placeFrame (s : State) : State := (s.setPhase .locked).setBitIndex (BitVec.ofNat 6 Config.packetLength)

/-- The buffer with this measureKind in its cells [8,12), most significant bit first (R152). -/
def placeKind (kind : Nibble) (buf : BitBuffer) : BitBuffer :=
  setCell (setCell (setCell (setCell buf 8 (kind.getLsbD 3)) 9 (kind.getLsbD 2)) 10 (kind.getLsbD 1)) 11 (kind.getLsbD 0)

/-- `s` with a complete frame of this kind pending, and an edge that will complete it. -/
def placeFrameOfKind (kind : Nibble) (s : State) : State :=
  let t := placeFrame s
  placeEdge (t.setBuf (placeKind kind t.buf)) 0 .low

/-- `s` with all that the very next step needs in order to run the operation `i` (log entry 26): the phase its selector names,
and an edge whose duration and level the classifier, under the default configuration, gives that symbol. FRAME_COMPLETE and
the interpreter rows need a complete frame; the edge that completes it is then itself IGNORED, in the same step (R120). -/
def placeInstr (i : Instr) (s : State) : State :=
  match i with
  | .lock => placeEdge (s.setPhase .unlocked) (Config.default.lockThresholdUs + 1) .high
  | .idleUnlocked => placeEdge (s.setPhase .unlocked) 0 .low
  | .appendOne => placeEdge (placeLocked s) Config.default.lowPulseUs .low
  | .appendZero => placeEdge (placeLocked s) Config.default.highPulseUs .low
  | .abort => placeEdge (placeLocked s) (Config.default.highFailUs + 1) .high
  | .idleLocked => placeEdge (placeLocked s) Config.default.highPulseUs .high
  | .frameComplete => placeEdge (placeFrame s) 0 .low
  | .reset => s.setInputs (.reset :: s.inputs)
  | .temperature => placeFrameOfKind 0 s
  | .humidity => placeFrameOfKind 14 s
  | .unrecognized kind => placeFrameOfKind kind s

/-- `s` with the operation that a bare word of the table stands for placed to run next. -/
def placeTableWord (nbits w : Nat) (s : State) : State :=
  match decodeTableWord nbits w with
  | some i => placeInstr i s
  | none => s

end Sys2Proof.Machine
end

