-- ==== Sys2Proof/Machine/Step.lean ====
section
/-! DEFINITION. The step of the machine under the default configuration, and the placement of a table word. -/

namespace Sys2Proof.Machine

/-- One step: one input of the host under the default configuration of R6 (R120, R220). -/
def step (s : State) : Host.Outcome State Fault Refusal := stepWith Config.default s

/-- The state in which the very next step runs the operation of this table word (log entry 26). -/
def State.withFetchWord (s : State) (nbits w : Nat) : State := placeTableWord nbits w s

end Sys2Proof.Machine
end

