-- ==== Sys2Proof/Machine/EdgeStream.lean ====
section
/-! DEFINITION. The edge-stream form of R83 (decision D32), in which the spec writes the events a host delivers. It is a way to
write inputs down: no rule of behaviour uses it. -/

namespace Sys2Proof.Machine

/-- A line of the edge-stream form (R83). -/
inductive StreamLine where
  /-- `EDGE <ts> <L|H>` -/
  | edge (ts : Nat) (level : Level)
  /-- `BIT1 <gap>`, the gap optional -/
  | bit1 (gap : Option Nat)
  /-- `BIT0 <gap>`, the gap optional -/
  | bit0 (gap : Option Nat)
  /-- `WAIT <d> <L|H>` -/
  | wait (d : Nat) (level : Level)
  deriving DecidableEq, Repr

/-- The event `d` microseconds after `t`. -/
def eventAfter (t : Timestamp) (d : Nat) (level : Level) : EdgeEvent := ⟨t + BitVec.ofNat Config.tsWidth d, level⟩

/-- A low-ending pulse of `pulse` microseconds and, if given, the high-ending gap after it (R83). -/
def pulseAfter (t : Timestamp) (pulse : Nat) : Option Nat → List EdgeEvent
  | none => [eventAfter t pulse .low]
  | some gap => [eventAfter t pulse .low, eventAfter t (pulse + gap) .high]

/-- The EDGE lines a line stands for, `t` being the previous event's timestamp (R83). -/
def expandLine (cfg : Cfg) (t : Timestamp) : StreamLine → List EdgeEvent
  | .edge ts level => [⟨BitVec.ofNat Config.tsWidth ts, level⟩]
  | .bit1 gap => pulseAfter t cfg.lowPulseUs gap
  | .bit0 gap => pulseAfter t cfg.highPulseUs gap
  | .wait d level => [eventAfter t d level]

/-- The timestamp of the last of these events, or `t` if there is none. -/
def lastTs (t : Timestamp) (es : List EdgeEvent) : Timestamp := es.foldl (fun _ e => e.ts) t

/-- The events a stream stands for (R83). -/
def expandStream (cfg : Cfg) (t : Timestamp) : List StreamLine → List EdgeEvent
  | [] => []
  | l :: ls =>
    let es := expandLine cfg t l
    es ++ expandStream cfg (lastTs t es) ls

end Sys2Proof.Machine
end

