-- ==== Sys2Proof/Safety.lean ====
section
/-! DEFINITION. The terms in which claims are made: the buffer invariant (R33), runs and what they output, the host's duties
(R222, R230), transmissions, and the relation between states that differ only in what no output shows (R53). -/

namespace Sys2Proof.Safety

open Sys2Proof.Machine

/-- (I1) of R33: the index never passes PACKET_LENGTH. -/
abbrev withinBuffer (s : State) : Prop := s.bitIndex.toNat ≤ Config.packetLength

/-- (I2) of R33: while LOCKED, the cells from bitIndex on are 0. -/
abbrev clearAbove (s : State) : Prop :=
  s.phase = .locked → ∀ i < Config.packetLength, s.bitIndex.toNat ≤ i → cell s.buf i = false

/-- The invariant of the reachable states (R33). -/
abbrev Inv (s : State) : Prop := withinBuffer s ∧ clearAbove s

/-- The output events of a completed frame: the frame, then its reading if it has one (R27). -/
def frameEvents (r : FieldRecord) : List OutEvent :=
  match interpret r with
  | some v => [.frame r, .reading v]
  | none => [.frame r]

/-- The states after each of at most `n` steps, in order; a run ends where a step is refused. -/
def runSteps (cfg : Cfg) : Nat → State → List State
  | 0, _ => []
  | n + 1, s =>
    match stepWith cfg s with
    | .next t => t :: runSteps cfg n t
    | .fault _ => []
    | .refused _ => []

/-- The output events of a run, in step order (R58). -/
def outputs (run : List State) : List OutEvent := run.flatMap (·.out)

/-- The symbols of a run, in step order (R28). -/
def symbols (run : List State) : List Symbol := run.map (·.lastSym)

/-- The state a run from `s` ends in. -/
def finalState (s : State) (run : List State) : State := run.getLastD s

/-- Edge events as the host delivers them (R26, R70). -/
def edges (es : List EdgeEvent) : List Input := es.map fun e => .edge (encodeEvent e)

/-- The frames among output events. -/
def isFrame : OutEvent → Bool
  | .frame _ => true
  | .reading _ => false

/-- The symbols that these events have while the core stays LOCKED, the first measured from `t` (R100, R101). -/
def lockedSymbols (cfg : Cfg) (t : Timestamp) : List EdgeEvent → List Symbol
  | [] => []
  | e :: es => classify cfg (duration e.ts t) e.level .locked :: lockedSymbols cfg e.ts es

/-- The bit a symbol carries (R72). -/
def bitOf : Symbol → Option Bool
  | .bitOne => some true
  | .bitZero => some false
  | .ignored | .lockSync | .abort => none

/-- The bits of the BIT_ONE and BIT_ZERO symbols, in arrival order (I3 of R33). -/
def bitsOf (syms : List Symbol) : List Bool := syms.filterMap bitOf

/-- The host's third duty (R222): timestamps never decrease. A premise of a claim, not a step. The spec does not say how the duty
reads where a timestamp wraps (R229). DESIGN CHOICE, log entry 32: the words are compared as unsigned numbers, so a stream that
wraps does not meet this premise. -/
def monotone (t : Timestamp) : List EdgeEvent → Prop
  | [] => True
  | e :: es => t.toNat ≤ e.ts.toNat ∧ monotone e.ts es

/-- The edges that come after these true intervals, in microseconds, each leaving the line at its level. -/
def gapEdges (t : Timestamp) : List (Nat × Level) → List EdgeEvent
  | [] => []
  | (gap, level) :: gaps => eventAfter t gap level :: gapEdges (t + BitVec.ofNat Config.tsWidth gap) gaps

/-- The real-time requirement of R230 for a step budget: it is shorter than every inter-edge interval delivered, as the core
measures it (R100). The spec leaves STEP_BUDGET, `Config.stepBudgetUs`, open, so a claim is made for every budget. -/
def meetsBudget (budget : Nat) (t : Timestamp) : List EdgeEvent → Prop
  | [] => True
  | e :: es => budget < (duration e.ts t).toNat ∧ meetsBudget budget e.ts es

/-- One bit on the air: its value, the length of its low-ending pulse, and the high-ending gap after it. -/
structure Pulse where
  bit : Bool
  pulseUs : Nat
  gapUs : Nat
  deriving DecidableEq, Repr

/-- The pulse lies in its bit's band and the gap within the fail bounds (R104, R105, R228). -/
abbrev Pulse.tolerated (cfg : Cfg) (p : Pulse) : Prop :=
  inBand (if p.bit then cfg.lowPulseUs else cfg.highPulseUs) cfg.toleranceUs (BitVec.ofNat Config.tsWidth p.pulseUs) = true ∧
    beyondFailBounds cfg (BitVec.ofNat Config.tsWidth p.pulseUs) = false ∧
    beyondFailBounds cfg (BitVec.ofNat Config.tsWidth p.gapUs) = false

/-- The edges of a sequence of bits, the first pulse starting at `t`. -/
def pulseEdges (t : Timestamp) : List Pulse → List EdgeEvent
  | [] => []
  | p :: ps =>
    eventAfter t p.pulseUs .low :: eventAfter t (p.pulseUs + p.gapUs) .high ::
      pulseEdges (t + BitVec.ofNat Config.tsWidth (p.pulseUs + p.gapUs)) ps

/-- Same in everything that an output or a later step can show: all but the index and the cells, and those too while LOCKED
(R53, R127, decisions D6 and D7). -/
abbrev sameButDeadBits (s t : State) : Prop :=
  s.phase = t.phase ∧ s.prevTs = t.prevTs ∧ s.lastSym = t.lastSym ∧ s.inputs = t.inputs ∧ s.out = t.out ∧
    (s.phase = .locked → s.bitIndex = t.bitIndex ∧ s.buf = t.buf)

/-- The next state of an outcome, if it is one. -/
def nextOf (r : Result) : Option State :=
  match r with
  | .next s => some s
  | .fault _ => none
  | .refused _ => none

end Sys2Proof.Safety
end

