-- ==== Sys2Proof/Certificates/Slice0/Obligations.lean ====
section
/-! DEFINITION. The statements for the provers, from the numbered rules of spec/. Where a clause rests on a decision of
92_eei_decisions.md or on a log entry, the docstring names it. -/

open Sys2Proof Sys2Proof.Machine Sys2Proof.Safety

/-! ## Encodings -/

/-- The words of spec/opcode_table.json, written out bit by bit, decode to their rows (R84). -/
def Obligations.TableWordsDecode : Prop :=
  decode .phaseSymbol 0b00000001 = .ok .lock ∧
  decode .phaseSymbol 0b00000000 = .ok .idleUnlocked ∧
  decode .phaseSymbol 0b00001011 = .ok .appendOne ∧
  decode .phaseSymbol 0b00001010 = .ok .appendZero ∧
  decode .phaseSymbol 0b00001100 = .ok .abort ∧
  decode .phaseSymbol 0b00001000 = .ok .idleLocked ∧
  decode .stateCheck 0b01101100 = .ok .frameComplete ∧
  decode .reset 0b00000001 = .ok .reset ∧
  decode .measureKind 0b00000000 = .ok .temperature ∧
  decode .measureKind 0b00001110 = .ok .humidity ∧
  decode .measureKind 0b00000111 = .ok (.unrecognized 0b0111) ∧
  decode .measureKind 0b00001111 = .ok (.unrecognized 0b1111)

/-- Every word that is no row of its format is rejected by name: reserved symbol codes (R73), the four unreachable pairs
(R129), a state check that is not {LOCKED, 44} (R121), a reset input that is not asserted, and bits above the format. That
reserved codes are refused is decision D30 (log entry 24); the rejections of a reset input that is not asserted and of bits
above the format, and the name of every rejection, are the decoder's own choice (DESIGN CHOICE, log entry 24). -/
def Obligations.OtherWordsRejected : Prop :=
  (∀ (p : Phase) (c : BitVec 3), 5 ≤ c.toNat →
    decode .phaseSymbol ((0 : BitVec 4) ++ p.bit ++ c) = .error (.reservedSymbol c)) ∧
  (∀ (p : Phase) (sym : Symbol),
    ((p = .unlocked ∧ (sym = .bitOne ∨ sym = .bitZero ∨ sym = .abort)) ∨ (p = .locked ∧ sym = .lockSync)) →
    decode .phaseSymbol (selectorWord p sym) = .error (.unreachablePair p sym)) ∧
  (∀ w : BitVec 7, w ≠ 0b1101100 → decode .stateCheck ((0 : BitVec 1) ++ w) = .error (.frameNotComplete w)) ∧
  decode .reset 0 = .error .resetNotAsserted ∧
  (∀ (f : Format) (b : BitVec 8), 2 ^ f.width ≤ b.toNat → decode f b = .error (.tooWide b))

/-- Decoding and encoding agree in both directions: a well-formed operation's word decodes to it, and a word that decodes to
an operation is that well-formed operation's own word in its own format (R84). -/
def Obligations.InstrDecodeEncode : Prop :=
  (∀ i : Instr, i.wf = true → decode i.format (encode i) = .ok i) ∧
  (∀ (f : Format) (b : BitVec 8) (i : Instr), decode f b = .ok i → i.wf = true ∧ i.format = f ∧ encode i = b)

/-- The event word carries exactly its event (R70): both round trips, the level in bit TS_WIDTH, the timestamp below it. The
layout is the spec's own (decisions D2, D12, D13; log entries 1, 8, 9). -/
def Obligations.EventWordRoundTrip : Prop :=
  (∀ e : EdgeEvent, decodeEvent (encodeEvent e) = e) ∧
  (∀ w : EventWord, encodeEvent (decodeEvent w) = w) ∧
  (∀ e : EdgeEvent,
    (encodeEvent e).toNat = (if e.level = .high then 2 ^ Config.tsWidth else 0) + e.ts.toNat)

/-- No bit of a packet is dropped: a record's packet decodes to it, and a buffer is the packet of the record it decodes to
(R160, R79). The packing into one word and the field `redundancy` are decisions D31 and D29 (log entries 8, 23). -/
def Obligations.PacketEncodeDecode : Prop :=
  (∀ r : FieldRecord, decodeFields (encodeFields r) = r) ∧
  (∀ buf : BitBuffer, encodeFields (decodeFields buf) = buf)

/-- The frame word is `FR = Σ buf[i]·2^(43-i)`: position 0 is its most significant bit, and every field of the record is the
slice that the table of R79 gives it (decision D31, log entry 8; `redundancy` is a field by decision D29, log entry 23). -/
def Obligations.FrameWordLayout : Prop :=
  ∀ buf : BitBuffer,
    let r := decodeFields buf
    let fr := frameWord r
    fr.toNat = ∑ i ∈ Finset.range Config.packetLength, (cell buf i).toNat * 2 ^ (Config.packetLength - 1 - i) ∧
    fr.extractLsb' 36 8 = r.initByte ∧ fr.extractLsb' 32 4 = r.measureKind ∧ fr.extractLsb' 25 7 = r.deviceId ∧
    fr.extractLsb' 24 1 = r.parityBit ∧ fr.extractLsb' 20 4 = r.tensDigit ∧ fr.extractLsb' 16 4 = r.onesDigit ∧
    fr.extractLsb' 12 4 = r.tenthsDigit ∧ fr.extractLsb' 4 8 = r.redundancy ∧ fr.extractLsb' 0 4 = r.checksumNibble

/-- `Extract(buf, start, width) = Σ buf[start+i]·2^(width-1-i)`, below 2^width, with its corner cases: one bit, and all ones
(R150). -/
def Obligations.ExtractReadsMsbFirst : Prop :=
  ∀ (buf : BitBuffer) (start width : Nat),
    extract buf start width =
      ∑ i ∈ Finset.range width, (cell buf (start + i)).toNat * 2 ^ (width - 1 - i) ∧
    extract buf start width < 2 ^ width ∧
    extract buf start 1 = (cell buf start).toNat ∧
    ((∀ i < width, cell buf (start + i) = true) → extract buf start width = 2 ^ width - 1)

/-- Eight of the nine fields are the extracts that R151 to R157 and R159 name. (`redundancy`, R158, is in `FrameWordLayout`, with
the slices of the port word.) -/
def Obligations.FieldsAtTheirPositions : Prop :=
  ∀ buf : BitBuffer,
    (decodeFields buf).initByte.toNat = extract buf 0 8 ∧
    (decodeFields buf).measureKind.toNat = extract buf 8 4 ∧
    (decodeFields buf).deviceId.toNat = extract buf 12 7 ∧
    ((decodeFields buf).parityBit.toNat = extract buf 19 1 ∧ extract buf 19 1 = (cell buf 19).toNat) ∧
    (decodeFields buf).tensDigit.toNat = extract buf 20 4 ∧
    (decodeFields buf).onesDigit.toNat = extract buf 24 4 ∧
    (decodeFields buf).tenthsDigit.toNat = extract buf 28 4 ∧
    (decodeFields buf).checksumNibble.toNat = extract buf 40 4

/-- The symbol and unit codes, each written out: each reads back, the bit symbols carry their bit in bit 0, and the reserved
codes stand for nothing (R72, R73, R80; decisions D9, D11, D30; log entries 8, 24). -/
def Obligations.PortCodes : Prop :=
  (Symbol.code .ignored = 0b000 ∧ Symbol.code .lockSync = 0b001 ∧ Symbol.code .bitZero = 0b010 ∧
    Symbol.code .bitOne = 0b011 ∧ Symbol.code .abort = 0b100) ∧
  (unitCode .unrecognized = 0b00 ∧ unitCode .fahrenheit = 0b01 ∧ unitCode .percent = 0b10) ∧
  (∀ sym : Symbol, Symbol.ofCode sym.code = some sym) ∧
  (∀ c : BitVec 3, Symbol.ofCode c = none ↔ 5 ≤ c.toNat) ∧
  (∀ (sym : Symbol) (b : Bool), bitOf sym = some b → sym.code.getLsbD 0 = b) ∧
  (∀ u : ReadingUnit, unitOfCode (unitCode u) = some u) ∧
  (∀ c : BitVec 2, unitOfCode c = none ↔ c = 0b11)

/-! ## The classifier -/

/-- The complete partition under the default configuration, row by row (R108). That a duration exactly at 5000, 2000 or 200
belongs to the inner row is decision D28 (log entry 22). -/
def Obligations.ClassifyDefaultPartition : Prop :=
  ∀ (d : Timestamp) (level : Level),
    (d.toNat ≤ 5000 → classify Config.default d level .unlocked = .ignored) ∧
    (5001 ≤ d.toNat → classify Config.default d level .unlocked = .lockSync) ∧
    (d.toNat ≤ 199 → classify Config.default d level .locked = .abort) ∧
    (2001 ≤ d.toNat → classify Config.default d level .locked = .abort) ∧
    (200 ≤ d.toNat → d.toNat ≤ 2000 → classify Config.default d .high .locked = .ignored) ∧
    (200 ≤ d.toNat → d.toNat ≤ 449 → classify Config.default d .low .locked = .ignored) ∧
    (450 ≤ d.toNat → d.toNat ≤ 650 → classify Config.default d .low .locked = .bitOne) ∧
    (651 ≤ d.toNat → d.toNat ≤ 1199 → classify Config.default d .low .locked = .ignored) ∧
    (1200 ≤ d.toNat → d.toNat ≤ 1400 → classify Config.default d .low .locked = .bitZero) ∧
    (1401 ≤ d.toNat → d.toNat ≤ 2000 → classify Config.default d .low .locked = .ignored)

/-- BIT_ONE and BIT_ZERO under any configuration: LOCKED, not beyond the fail bounds, level low, and in the closed band; where
the bands overlap the symbol is BIT_ONE (R104, R105). With the default configuration the bands are 450..650 and 1200..1400.
That a duration equal to a fail bound is not beyond it, which a recalibrated band may contain, is decision D28 (log entry 22). -/
def Obligations.BitBandsAreClosed : Prop :=
  (∀ (cfg : Cfg) (d : Timestamp) (level : Level) (p : Phase),
    (classify cfg d level p = .bitOne ↔
      p = .locked ∧ ¬(cfg.highFailUs < d.toNat ∨ d.toNat < cfg.lowFailUs) ∧ level = .low ∧
        ((cfg.lowPulseUs : Int) - cfg.toleranceUs ≤ d.toNat ∧ (d.toNat : Int) ≤ cfg.lowPulseUs + cfg.toleranceUs)) ∧
    (classify cfg d level p = .bitZero ↔
      p = .locked ∧ ¬(cfg.highFailUs < d.toNat ∨ d.toNat < cfg.lowFailUs) ∧ level = .low ∧
        ¬((cfg.lowPulseUs : Int) - cfg.toleranceUs ≤ d.toNat ∧ (d.toNat : Int) ≤ cfg.lowPulseUs + cfg.toleranceUs) ∧
        ((cfg.highPulseUs : Int) - cfg.toleranceUs ≤ d.toNat ∧ (d.toNat : Int) ≤ cfg.highPulseUs + cfg.toleranceUs))) ∧
  (∀ (d : Timestamp) (level : Level) (p : Phase),
    (classify Config.default d level p = .bitOne ↔ p = .locked ∧ level = .low ∧ 450 ≤ d.toNat ∧ d.toNat ≤ 650) ∧
    (classify Config.default d level p = .bitZero ↔ p = .locked ∧ level = .low ∧ 1200 ≤ d.toNat ∧ d.toNat ≤ 1400))

/-- LOCK_SYNC and ABORT under any configuration, and IGNORED exactly where the condition of none of R102 to R105 holds (R102,
R103, R106). The level plays no part in the first two. "exceeds" and "below" are strict by decision D28 (log entry 22). -/
def Obligations.LockAndAbortThresholds : Prop :=
  ∀ (cfg : Cfg) (d : Timestamp) (level : Level) (p : Phase),
    (classify cfg d level p = .lockSync ↔ p = .unlocked ∧ cfg.lockThresholdUs < d.toNat) ∧
    (classify cfg d level p = .abort ↔ p = .locked ∧ (cfg.highFailUs < d.toNat ∨ d.toNat < cfg.lowFailUs)) ∧
    (classify cfg d level p = .ignored ↔
      ¬(p = .unlocked ∧ cfg.lockThresholdUs < d.toNat) ∧
      ¬(p = .locked ∧ (cfg.highFailUs < d.toNat ∨ d.toNat < cfg.lowFailUs)) ∧
      ¬(p = .locked ∧ level = .low ∧
        (cfg.lowPulseUs : Int) - cfg.toleranceUs ≤ d.toNat ∧ (d.toNat : Int) ≤ cfg.lowPulseUs + cfg.toleranceUs) ∧
      ¬(p = .locked ∧ level = .low ∧
        (cfg.highPulseUs : Int) - cfg.toleranceUs ≤ d.toNat ∧ (d.toNat : Int) ≤ cfg.highPulseUs + cfg.toleranceUs))

/-- The range of the classifier: the pair it makes with the phase always selects a transition row (R109, R74). The spec derives
this from R101. -/
def Obligations.ClassifierSelectsARow : Prop :=
  ∀ (cfg : Cfg) (d : Timestamp) (level : Level) (p : Phase),
    ∃ i, decode .phaseSymbol (selectorWord p (classify cfg d level p)) = .ok i

/-- The duration is the true gap modulo 2^TS_WIDTH, so it is the true gap when that is below 2^TS_WIDTH, across a wrap too
(R100, R229; decisions D2, D25, log entries 1, 19). Where the host keeps its duty of R222 it is the plain difference. -/
def Obligations.DurationIsElapsedTime : Prop :=
  (∀ t0 t1 : Nat, t0 ≤ t1 →
    (duration (BitVec.ofNat Config.tsWidth t1) (BitVec.ofNat Config.tsWidth t0)).toNat = (t1 - t0) % 2 ^ Config.tsWidth ∧
    (t1 - t0 < 2 ^ Config.tsWidth →
      (duration (BitVec.ofNat Config.tsWidth t1) (BitVec.ofNat Config.tsWidth t0)).toNat = t1 - t0)) ∧
  (∀ (t : Timestamp) (e : EdgeEvent) (es : List EdgeEvent), monotone t (e :: es) →
    (duration e.ts t).toNat = e.ts.toNat - t.toNat)

/-! ## Results of the rows -/

/-- LOCK completes from every UNLOCKED state, whatever its index and cells: LOCKED, index 0, every cell 0, the rest as before
(R123, R134). That "cleared" means 0 is decision D19 (log entry 3). -/
def Obligations.LockResult : Prop :=
  ∀ s : State, s.phase = .unlocked →
    ∃ t, exec .lock s = .next t ∧
      t.phase = .locked ∧ t.bitIndex = 0 ∧ (∀ i, cell t.buf i = false) ∧
      t.prevTs = s.prevTs ∧ t.lastSym = s.lastSym ∧ t.inputs = s.inputs ∧ t.out = s.out

/-- APPEND_ONE and APPEND_ZERO complete from every LOCKED state. With room, the cell at the index takes the bit, every other
cell keeps its value and the index moves on by one without wrapping; at a full buffer the guard leaves everything as it was.
Nothing else changes (R125, R126). -/
def Obligations.AppendResult : Prop :=
  ∀ (s : State) (i : Instr) (b : Bool), ((i = .appendOne ∧ b = true) ∨ (i = .appendZero ∧ b = false)) → s.phase = .locked →
    (s.bitIndex.toNat < Config.packetLength →
      ∃ t, exec i s = .next t ∧
        cell t.buf s.bitIndex.toNat = b ∧ (∀ j, j ≠ s.bitIndex.toNat → cell t.buf j = cell s.buf j) ∧
        t.bitIndex.toNat = s.bitIndex.toNat + 1 ∧
        t.phase = s.phase ∧ t.prevTs = s.prevTs ∧ t.lastSym = s.lastSym ∧ t.inputs = s.inputs ∧ t.out = s.out) ∧
    (Config.packetLength ≤ s.bitIndex.toNat → exec i s = .next s)

/-- ABORT completes from every LOCKED state: the phase is UNLOCKED and nothing else changes, no output included (R127). That
bitIndex and the cells keep their values is decision D6 (log entry 6). -/
def Obligations.AbortResult : Prop :=
  ∀ s : State, s.phase = .locked →
    ∃ t, exec .abort s = .next t ∧
      t.phase = .unlocked ∧ t.bitIndex = s.bitIndex ∧ (∀ i, cell t.buf i = cell s.buf i) ∧
      t.prevTs = s.prevTs ∧ t.lastSym = s.lastSym ∧ t.inputs = s.inputs ∧ t.out = s.out

/-- The two idle rows complete and change nothing: IDLE_UNLOCKED from every UNLOCKED state (R124, decision D8, log entry 7),
IDLE_LOCKED from every LOCKED state (R128). -/
def Obligations.IdleRowsResult : Prop :=
  (∀ s : State, s.phase = .unlocked → exec .idleUnlocked s = .next s) ∧
  (∀ s : State, s.phase = .locked → exec .idleLocked s = .next s)

/-- FRAME_COMPLETE completes from every LOCKED state with bitIndex 44: it puts out the frame of the whole buffer and then its
reading, if it has one, and the phase is UNLOCKED (R121, R27). That bitIndex and the cells stay is decision D7 (log entry 6). -/
def Obligations.FrameCompleteResult : Prop :=
  ∀ s : State, s.phase = .locked → s.bitIndex.toNat = Config.packetLength →
    ∃ t, exec .frameComplete s = .next t ∧
      t.phase = .unlocked ∧ t.out = s.out ++ frameEvents (decodeFields s.buf) ∧
      t.bitIndex = s.bitIndex ∧ (∀ i, cell t.buf i = cell s.buf i) ∧
      t.prevTs = s.prevTs ∧ t.lastSym = s.lastSym ∧ t.inputs = s.inputs

/-- TEMPERATURE completes on every completed frame whose measureKind is 0: it puts out Reading(Fahrenheit, 18·dv10 - 5800) and
changes nothing else. That value is 100 times `(dv10/10 - 50)·9/5 + 32`, exactly; it is even, and negative just when dv10 is
below 323 (R171). -/
def Obligations.TemperatureResult : Prop :=
  ∀ s : State, s.phase = .locked → s.bitIndex.toNat = Config.packetLength → (decodeFields s.buf).measureKind = 0 →
    let dv := dv10 (decodeFields s.buf)
    exec .temperature s = .next { s with out := s.out ++ [.reading ⟨.fahrenheit, 18 * dv - 5800⟩] } ∧
    ((18 * dv - 5800 : Int) : Rat) / 100 = ((dv : Rat) / 10 - 50) * 9 / 5 + 32 ∧
    (18 * dv - 5800) % 2 = 0 ∧
    (18 * dv - 5800 < 0 ↔ dv < 323)

/-- HUMIDITY completes on every completed frame whose measureKind is 14: it puts out Reading(Percent, 10·dv10) and changes
nothing else (R172). That values above 100 % are not clamped is decision D14 (log entry 10). -/
def Obligations.HumidityResult : Prop :=
  ∀ s : State, s.phase = .locked → s.bitIndex.toNat = Config.packetLength → (decodeFields s.buf).measureKind = 14 →
    exec .humidity s = .next { s with out := s.out ++ [.reading ⟨.percent, 10 * dv10 (decodeFields s.buf)⟩] }

/-- UNRECOGNIZED completes on every completed frame of any other kind and changes nothing: no reading, no diagnostic (R173).
That no value is defined for these kinds is decision D16 (log entry 11). -/
def Obligations.UnrecognizedResult : Prop :=
  ∀ (s : State) (kind : Nibble), kind ≠ 0 → kind ≠ 14 →
    s.phase = .locked → s.bitIndex.toNat = Config.packetLength → (decodeFields s.buf).measureKind = kind →
    exec (.unrecognized kind) s = .next s

/-- RESET completes from every state: every field takes its value in the table of R34 and no output is pending (R220). Only the
phase's value is the source's; the rest are decisions D3, D4, D19 and D23 (log entries 2, 3, 18). The host's queue is the
model's own and stays (log entry 15). -/
def Obligations.ResetResult : Prop :=
  ∀ s : State,
    ∃ t, exec .reset s = .next t ∧
      t.phase = .unlocked ∧ t.bitIndex = 0 ∧ (∀ i, cell t.buf i = false) ∧ t.prevTs = 0 ∧ t.lastSym = .ignored ∧
      t.out = [] ∧ t.inputs = s.inputs

/-- `dv10`: its formula, its range over all nibbles and over BCD digits, and that it is ten times the source's
`tensDigit×10 + onesDigit + tenthsDigit/10` (R170). -/
def Obligations.DecimalValue : Prop :=
  ∀ r : FieldRecord,
    dv10 r = 100 * (r.tensDigit.toNat : Int) + 10 * r.onesDigit.toNat + r.tenthsDigit.toNat ∧
    0 ≤ dv10 r ∧ dv10 r ≤ 1665 ∧
    (r.tensDigit.toNat ≤ 9 → r.onesDigit.toNat ≤ 9 → r.tenthsDigit.toNat ≤ 9 → dv10 r ≤ 999) ∧
    (dv10 r : Rat) = 10 * ((r.tensDigit.toNat : Rat) * 10 + r.onesDigit.toNat + (r.tenthsDigit.toNat : Rat) / 10)

/-- A transition row is refused by name in the phase its selector does not name: the four unreachable pairs of R129 get no
meaning, and no more does an idle row in the other phase (R84, log entry 24). -/
def Obligations.RowsRefusedInTheOtherPhase : Prop :=
  ∀ s : State,
    (s.phase = .unlocked →
      exec .appendOne s = .refused (.rowNotSelected .locked .bitOne) ∧
      exec .appendZero s = .refused (.rowNotSelected .locked .bitZero) ∧
      exec .abort s = .refused (.rowNotSelected .locked .abort) ∧
      exec .idleLocked s = .refused (.rowNotSelected .locked .ignored)) ∧
    (s.phase = .locked →
      exec .lock s = .refused (.rowNotSelected .unlocked .lockSync) ∧
      exec .idleUnlocked s = .refused (.rowNotSelected .unlocked .ignored))

/-- A buffer that is not complete never reaches the decoder: where the phase is not LOCKED or the index is not 44,
FRAME_COMPLETE and the three interpreter rows are refused (R161, R52; log entry 24). -/
def Obligations.PartialFrameNeverDecoded : Prop :=
  ∀ s : State, ¬(s.phase = .locked ∧ s.bitIndex.toNat = Config.packetLength) →
    exec .frameComplete s = .refused .frameNotComplete ∧
    exec .temperature s = .refused .frameNotComplete ∧
    exec .humidity s = .refused .frameNotComplete ∧
    (∀ kind : Nibble, kind ≠ 0 → kind ≠ 14 → exec (.unrecognized kind) s = .refused .frameNotComplete)

/-- An interpreter row runs on a record of its own kind only: on a complete frame of another kind TEMPERATURE, HUMIDITY and
UNRECOGNIZED are refused by name, and UNRECOGNIZED with the operand 0 or 14 is refused in every state (R77, R173). That such a
row is refused, and how, is the model's choice (DEDUCED and DESIGN CHOICE, log entry 24). -/
def Obligations.InterpreterRowsRefuseOtherKinds : Prop :=
  (∀ s : State, s.phase = .locked → s.bitIndex.toNat = Config.packetLength →
    let kind := (decodeFields s.buf).measureKind
    (kind ≠ 0 → exec .temperature s = .refused (.kindNotSelected 0 kind)) ∧
    (kind ≠ 14 → exec .humidity s = .refused (.kindNotSelected 14 kind)) ∧
    (∀ row : Nibble, row ≠ 0 → row ≠ 14 → kind ≠ row → exec (.unrecognized row) s = .refused (.kindNotSelected row kind))) ∧
  (∀ s : State,
    exec (.unrecognized 0) s = .refused (.recognizedKind 0) ∧ exec (.unrecognized 14) s = .refused (.recognizedKind 14))

/-! ## Frames of the rows -/

/-- The buffer is written by clear and by append only, and an append writes no cell but the one at the index (R51); RESET sets
it to its reset value (R220, decision D4, log entry 3). -/
def Obligations.BufferWrites : Prop :=
  ∀ (i : Instr) (s t : State), exec i s = .next t →
    (i = .lock → ∀ j, cell t.buf j = false) ∧
    (i = .reset → ∀ j, cell t.buf j = false) ∧
    (i = .appendOne ∨ i = .appendZero → ∀ j, j ≠ s.bitIndex.toNat → cell t.buf j = cell s.buf j) ∧
    (i ≠ .lock → i ≠ .reset → i ≠ .appendOne → i ≠ .appendZero → ∀ j, cell t.buf j = cell s.buf j)

/-- The phase changes in three ways and on reset: LOCK sets LOCKED, ABORT and FRAME_COMPLETE set UNLOCKED; bitIndex changes
under LOCK, the two appends and RESET only (R21, R22). That it stays under ABORT and FRAME_COMPLETE is decisions D6 and D7 (log
entry 6), and its reset value 0 is decision D4 (log entry 3). -/
def Obligations.PhaseAndIndexWrites : Prop :=
  ∀ (i : Instr) (s t : State), exec i s = .next t →
    (t.phase ≠ s.phase →
      (i = .lock ∧ t.phase = .locked) ∨
      ((i = .abort ∨ i = .frameComplete ∨ i = .reset) ∧ t.phase = .unlocked)) ∧
    (t.bitIndex ≠ s.bitIndex →
      ((i = .lock ∨ i = .reset) ∧ t.bitIndex = 0) ∨
      ((i = .appendOne ∨ i = .appendZero) ∧ t.bitIndex.toNat = s.bitIndex.toNat + 1))

/-- No row but RESET touches the timestamp, the observed symbol or the host's queue, which are the edge step's (R100, R28); only
FRAME_COMPLETE, TEMPERATURE and HUMIDITY put anything out, and they keep what is already out (R27). -/
def Obligations.RowsKeepTheStepsRegisters : Prop :=
  ∀ (i : Instr) (s t : State), i ≠ .reset → exec i s = .next t →
    t.prevTs = s.prevTs ∧ t.lastSym = s.lastSym ∧ t.inputs = s.inputs ∧
    s.out <+: t.out ∧
    (i ≠ .frameComplete → i ≠ .temperature → i ≠ .humidity → t.out = s.out)

/-! ## The interpreter and its ports -/

/-- `Interpret(r)`: kind 0, kind 14 and the rest; and in every step a reading stands right after its own frame, so none is ever
put out without a frame in the same step (R177). -/
def Obligations.InterpretCases : Prop :=
  (∀ r : FieldRecord,
    (r.measureKind = 0 → interpret r = some ⟨.fahrenheit, 18 * dv10 r - 5800⟩) ∧
    (r.measureKind = 14 → interpret r = some ⟨.percent, 10 * dv10 r⟩) ∧
    (r.measureKind ≠ 0 → r.measureKind ≠ 14 → interpret r = none)) ∧
  (∀ (cfg : Cfg) (s t : State) (v : Reading), stepWith cfg s = .next t → .reading v ∈ t.out →
    ∃ r, t.out = [.frame r, .reading v] ∧ interpret r = some v)

/-- Every reading lies in [-5800, 24170], is even in Fahrenheit and a multiple of ten in Percent, has a unit other than
Unrecognized, and its port word carries it without overflow (R174, R81, R80). The word and the exact hundredths are decisions
D11 and D15 (log entries 8, 11). -/
def Obligations.ReadingsFitTheirPort : Prop :=
  ∀ (r : FieldRecord) (v : Reading), interpret r = some v →
    -5800 ≤ v.value100 ∧ v.value100 ≤ 24170 ∧
    (v.unit = .fahrenheit ∧ v.value100 % 2 = 0 ∨ v.unit = .percent ∧ v.value100 % 10 = 0) ∧
    ((readingWord v).extractLsb' 0 16).toInt = v.value100 ∧
    (readingWord v).extractLsb' 16 2 = unitCode v.unit

/-- No frame is rejected or read differently for its parity bit, its checksum nibble or its redundancy bits: two completed
buffers with equal cells at the kind and the three digits give the same reading, each after its own frame (R162). -/
def Obligations.UncheckedFieldsDoNotMatter : Prop :=
  ∀ (s : State) (buf : BitBuffer), s.phase = .locked → s.bitIndex.toNat = Config.packetLength →
    (∀ i, (8 ≤ i ∧ i < 12) ∨ (20 ≤ i ∧ i < 32) → cell buf i = cell s.buf i) →
    ∃ (t u : State) (readings : List OutEvent),
      exec .frameComplete s = .next t ∧ t.out = s.out ++ .frame (decodeFields s.buf) :: readings ∧
      exec .frameComplete (s.setBuf buf) = .next u ∧ u.out = s.out ++ .frame (decodeFields buf) :: readings

/-! ## The step -/

/-- A step runs the decoded operation. On an edge with no frame complete (the state check's word is no row) it stores the
timestamp, runs the row that the selector word decodes to and records the symbol; where the check's word decodes, that row runs
first and the selector is made with the phase it leaves; on the reset input it runs the row of that word; with no input it only
empties the output list (R120, R84; decisions D5, D18, log entries 5, 13, 15). Inside FRAME_COMPLETE the row that measureKind's
word decodes to runs after the frame is put out (R121). -/
def Obligations.StepRunsDecodedRow : Prop :=
  (∀ (cfg : Cfg) (s : State) (w : EventWord) (rest : List Input), cfg.wf = true → s.inputs = .edge w :: rest →
    let e := decodeEvent w
    let s0 : State := { s with inputs := rest, out := [] }
    (∀ (err : DecodeError) (i : Instr),
      let sym := classify cfg (duration e.ts s.prevTs) e.level s.phase
      decode .stateCheck (stateCheckWord s) = .error err → decode .phaseSymbol (selectorWord s.phase sym) = .ok i →
      stepWith cfg s = andThen (exec i { s0 with prevTs := e.ts }) fun t => .next { t with lastSym := sym }) ∧
    (∀ (j i : Instr) (s1 : State),
      let sym := classify cfg (duration e.ts s1.prevTs) e.level s1.phase
      decode .stateCheck (stateCheckWord s) = .ok j → exec j s0 = .next s1 →
      decode .phaseSymbol (selectorWord s1.phase sym) = .ok i →
      stepWith cfg s = andThen (exec i { s1 with prevTs := e.ts }) fun t => .next { t with lastSym := sym })) ∧
  (∀ (cfg : Cfg) (s : State) (rest : List Input) (i : Instr), cfg.wf = true → s.inputs = .reset :: rest →
    decode .reset 1 = .ok i → stepWith cfg s = exec i { s with inputs := rest }) ∧
  (∀ (cfg : Cfg) (s : State), cfg.wf = true → s.inputs = [] → stepWith cfg s = .next { s with out := [] }) ∧
  (∀ (s : State) (i : Instr), s.phase = .locked → s.bitIndex.toNat = Config.packetLength →
    decode .measureKind (kindWord (decodeFields s.buf).measureKind) = .ok i →
    exec .frameComplete s =
      andThen (exec i (emit (.frame (decodeFields s.buf)) s)) fun t => .next { t with phase := .unlocked })

/-- The step never stops under an accepted configuration: every state has a next state, so every input event leads to one
(R200, decision D20, log entry 16). -/
def Obligations.StepAlwaysAnswersNext : Prop :=
  (∀ (cfg : Cfg) (s : State), cfg.wf = true → ∃ t, stepWith cfg s = .next t) ∧
  (∀ s : State, ∃ t, step s = .next t)

/-- A configuration whose PACKET_LENGTH is not 44 is refused, in every state (R161, decision D27, log entry 21). -/
def Obligations.ConfigurationWithoutFieldMapRefused : Prop :=
  ∀ (cfg : Cfg) (s : State), cfg.packetLength ≠ 44 → stepWith cfg s = .refused (.packetLength cfg.packetLength)

/-- The buffer invariant (I1) and (I2) is kept by every step, from every state that meets it (R33, which the spec derives). -/
def Obligations.StepKeepsBufferInvariant : Prop :=
  (∀ (cfg : Cfg) (s t : State), Inv s → stepWith cfg s = .next t → Inv t) ∧
  (∀ s t : State, Inv s → step s = .next t → Inv t)

/-- The reset state: the table of R34, and the buffer invariant. All values but the phase's are decisions (D3, D4, D19, D23;
log entries 2, 3, 18). -/
def Obligations.ResetStateHolds : Prop :=
  State.reset.phase = .unlocked ∧ State.reset.bitIndex = 0 ∧ (∀ i, cell State.reset.buf i = false) ∧
  State.reset.prevTs = 0 ∧ State.reset.lastSym = .ignored ∧ State.reset.out = [] ∧ Inv State.reset

/-- Every edge step stores the event's timestamp, whatever the symbol, and records the symbol it had (R24, R100, R28; decisions
D3, D23, log entries 2, 18). -/
def Obligations.EveryEdgeStoresItsTime : Prop :=
  ∀ (cfg : Cfg) (s t : State) (w : EventWord) (rest : List Input), s.inputs = .edge w :: rest → stepWith cfg s = .next t →
    t.prevTs = (decodeEvent w).ts ∧ t.inputs = rest ∧
    t.lastSym = classify cfg (duration (decodeEvent w).ts s.prevTs) (decodeEvent w).level
      (if s.phase = .locked ∧ s.bitIndex.toNat = Config.packetLength then .unlocked else s.phase)

/-- What an edge step puts out: the events of the frame that was complete when the edge arrived, and nothing if none was; so a
frame is never put out in the step of its 44th bit (R27, R122, R130; decision D18, log entry 13). -/
def Obligations.EdgeStepOutput : Prop :=
  ∀ (cfg : Cfg) (s t : State) (w : EventWord) (rest : List Input), s.inputs = .edge w :: rest → stepWith cfg s = .next t →
    (s.phase = .locked ∧ s.bitIndex.toNat = Config.packetLength → t.out = frameEvents (decodeFields s.buf)) ∧
    (¬(s.phase = .locked ∧ s.bitIndex.toNat = Config.packetLength) → t.out = [])

/-- A timing anomaly in a frame that is not complete: the phase becomes UNLOCKED and nothing is put out. A duration within the
fail bounds is no anomaly: the frame goes on, and where the duration lies outside both bit bands the symbol is IGNORED (R201).
That a duration exactly at a fail bound is within them is decision D28 (log entry 22). -/
def Obligations.TimingAnomalyAborts : Prop :=
  ∀ (cfg : Cfg) (s : State) (w : EventWord) (rest : List Input), cfg.wf = true → s.inputs = .edge w :: rest →
    s.phase = .locked → s.bitIndex.toNat ≠ Config.packetLength →
    let d := duration (decodeEvent w).ts s.prevTs
    (cfg.highFailUs < d.toNat ∨ d.toNat < cfg.lowFailUs →
      ∃ t, stepWith cfg s = .next t ∧ t.phase = .unlocked ∧ t.out = []) ∧
    (¬(cfg.highFailUs < d.toNat ∨ d.toNat < cfg.lowFailUs) →
      ∃ t, stepWith cfg s = .next t ∧ t.phase = .locked ∧
        (inBand cfg.lowPulseUs cfg.toleranceUs d = false → inBand cfg.highPulseUs cfg.toleranceUs d = false →
          t.lastSym = .ignored))

/-- A completed frame of an unrecognized kind: the next edge's step puts out the frame and no reading (R202). -/
def Obligations.UnrecognizedKindGivesFrameOnly : Prop :=
  ∀ (cfg : Cfg) (s : State) (w : EventWord) (rest : List Input), cfg.wf = true → s.inputs = .edge w :: rest →
    s.phase = .locked → s.bitIndex.toNat = Config.packetLength →
    (decodeFields s.buf).measureKind ≠ 0 → (decodeFields s.buf).measureKind ≠ 14 →
    ∃ t, stepWith cfg s = .next t ∧ t.out = [.frame (decodeFields s.buf)]

/-- No timeout: while no event arrives, any number of steps leaves every register as it is and puts nothing out, a LOCKED state
with a complete frame included (R131, R213). R131 speaks of LOCKED. That a step without input, in either phase, changes nothing
but the output list is log entry 28 (DEDUCED, decision D24), and that it empties the list is log entry 13. -/
def Obligations.NoTimeout : Prop :=
  ∀ (cfg : Cfg) (s : State) (n : Nat), cfg.wf = true → s.inputs = [] →
    (runSteps cfg n s).length = n ∧
    outputs (runSteps cfg n s) = [] ∧
    ∀ t ∈ runSteps cfg n s, t = { s with out := [] }

/-- IGNORED is the no-op: with no frame complete, an edge with that symbol changes no state of the core but prevTs, in either
phase (R75, R124, R128). The UNLOCKED half is decision D8 (log entry 7). The observed symbol, the queue and the output list are
the step's: decisions D23 and D18 and the model's own (log entries 18, 14, 13). -/
def Obligations.IgnoredChangesOnlyTheTime : Prop :=
  ∀ (cfg : Cfg) (s : State) (w : EventWord) (rest : List Input), cfg.wf = true → s.inputs = .edge w :: rest →
    ¬(s.phase = .locked ∧ s.bitIndex.toNat = Config.packetLength) →
    classify cfg (duration (decodeEvent w).ts s.prevTs) (decodeEvent w).level s.phase = .ignored →
    stepWith cfg s = .next { s with prevTs := (decodeEvent w).ts, lastSym := .ignored, inputs := rest, out := [] }

/-- A lock gap seen while LOCKED does not lock, whenever the lock threshold is not below the high fail bound: it aborts the
frame and keeps the index; with a complete frame pending it puts that frame out and locks in the same step, with index 0 and
every cell 0 (R226, R207, R123, R127). That the index stays at an abort is decision D6 (log entry 6), that the completing edge
locks is decision D5 (log entry 5), and that "cleared" means 0 is decision D19 (log entry 3). -/
def Obligations.LockGapWhileLocked : Prop :=
  ∀ (cfg : Cfg) (s : State) (w : EventWord) (rest : List Input), cfg.wf = true → cfg.highFailUs ≤ cfg.lockThresholdUs →
    s.inputs = .edge w :: rest → s.phase = .locked →
    cfg.lockThresholdUs < (duration (decodeEvent w).ts s.prevTs).toNat →
    ∃ t, stepWith cfg s = .next t ∧
      (s.bitIndex.toNat ≠ Config.packetLength → t.phase = .unlocked ∧ t.bitIndex = s.bitIndex ∧ t.out = []) ∧
      (s.bitIndex.toNat = Config.packetLength →
        t.phase = .locked ∧ t.bitIndex = 0 ∧ (∀ i, cell t.buf i = false) ∧ t.out = frameEvents (decodeFields s.buf))

/-- The buffer is read in one way only: a frame that is put out is the decoding of all 44 cells of a buffer that was complete,
and with no frame complete the cells have no influence on anything but the cells (R52). -/
def Obligations.BufferReadOnlyByTheFrameCheck : Prop :=
  (∀ (cfg : Cfg) (s t : State) (r : FieldRecord) (w : EventWord) (rest : List Input), s.inputs = .edge w :: rest →
    stepWith cfg s = .next t → .frame r ∈ t.out →
    s.phase = .locked ∧ s.bitIndex.toNat = Config.packetLength ∧ r = decodeFields s.buf) ∧
  (∀ (cfg : Cfg) (s t : State) (buf : BitBuffer), ¬(s.phase = .locked ∧ s.bitIndex.toNat = Config.packetLength) →
    stepWith cfg s = .next t → ∃ buf', stepWith cfg (s.setBuf buf) = .next (t.setBuf buf'))

/-! ## Runs -/

/-- What an abort or a completed frame leaves in bitIndex and the cells can never be seen: states that differ only there while
UNLOCKED answer the same steps, and every step keeps them so, with equal outputs (R53; decisions D4, D6, D7, log entry 6). -/
def Obligations.DeadBitsAreUnobservable : Prop :=
  ∀ (cfg : Cfg) (s t s' : State), sameButDeadBits s t → stepWith cfg s = .next s' →
    ∃ t', stepWith cfg t = .next t' ∧ sameButDeadBits s' t'

/-- A reset erases all history: two states that have the same inputs before them, the reset first, run alike, outputs included
(R133, R221; log entry 15). -/
def Obligations.ResetErasesHistory : Prop :=
  ∀ (cfg : Cfg) (s t : State) (rest : List Input) (n : Nat), s.inputs = .reset :: rest → t.inputs = .reset :: rest →
    runSteps cfg n s = runSteps cfg n t

/-- At most one frame is put out per lock acquisition, over every run through waiting inputs, from every state: no more frames
than LOCK_SYNC symbols, one more if the run starts LOCKED (R122, which the spec derives). -/
def Obligations.AtMostOneFramePerLock : Prop :=
  ∀ (cfg : Cfg) (s : State) (n : Nat), n ≤ s.inputs.length →
    ((outputs (runSteps cfg n s)).filter isFrame).length ≤
      (symbols (runSteps cfg n s)).count .lockSync + (if s.phase = .locked then 1 else 0)

/-- While LOCKED the buffer records the bits in arrival order (I3 of R33, which the spec derives): from a state just locked, any
edges that do not abort, with at most 44 bit symbols among them and no edge after the 44th, leave bit k in cell k, the index at
the number of bits, the phase LOCKED and nothing put out. -/
def Obligations.LockCycleRecordsBits : Prop :=
  ∀ (cfg : Cfg) (s : State) (es : List EdgeEvent) (rest : List Input), cfg.wf = true →
    s.phase = .locked → s.bitIndex = 0 → s.inputs = edges es ++ rest →
    .abort ∉ lockedSymbols cfg s.prevTs es →
    (bitsOf ((lockedSymbols cfg s.prevTs es).dropLast)).length < Config.packetLength →
    let bits := bitsOf (lockedSymbols cfg s.prevTs es)
    let t := finalState s (runSteps cfg es.length s)
    t.phase = .locked ∧ t.bitIndex.toNat = bits.length ∧
    (∀ (k : Nat) (hk : k < bits.length), cell t.buf k = bits[k]) ∧
    outputs (runSteps cfg es.length s) = []

/-- Every packet sent within the tolerances is delivered, under the default configuration: from any UNLOCKED state, a lock gap,
44 bits whose pulses lie in their bands and whose gaps lie within the fail bounds, and then one more edge of any time and level
in place of the last gap's, put out exactly the frame of those 44 bits and its reading (R102, R121, R125, R126, R130; decision
D5, log entry 5). That pulses and gaps exactly at a fail bound are tolerated is decision D28 (log entry 22). -/
def Obligations.ToleratedPacketIsDelivered : Prop :=
  ∀ (s : State) (gap : Nat) (level : Level) (ps : List Pulse) (last : EdgeEvent) (rest : List Input),
    s.phase = .unlocked → Config.default.lockThresholdUs < gap → gap < 2 ^ Config.tsWidth →
    ps.length = Config.packetLength → (∀ p ∈ ps, p.tolerated Config.default) →
    s.inputs = edges (eventAfter s.prevTs gap level ::
      ((pulseEdges (s.prevTs + BitVec.ofNat Config.tsWidth gap) ps).dropLast ++ [last])) ++ rest →
    ∃ buf : BitBuffer, (∀ (k : Nat) (hk : k < ps.length), cell buf k = ps[k].bit) ∧
      outputs (runSteps Config.default (2 * Config.packetLength + 1) s) = frameEvents (decodeFields buf)

/-- A STEP_BUDGET below LOW_FAIL_US suffices for R230, whatever it is (`Config.stepBudgetUs` is one; it is open, decision D26,
log entry 20). First, if every true interval the host delivers is at least LOW_FAIL_US, and below 2^TS_WIDTH so that its
duration shows it (R229, decision D2, log entry 1), then every duration the core computes exceeds the budget. Second, with no
premise on the host: a run that stays LOCKED and puts nothing out has only durations that exceed it, since a shorter one
aborts (R103; strict by decision D28, log entry 22). The spec derives the sufficiency. -/
def Obligations.BudgetBelowLowFailSuffices : Prop :=
  ∀ (cfg : Cfg) (budget : Nat), budget < cfg.lowFailUs →
    (∀ (t : Timestamp) (gaps : List (Nat × Level)),
      (∀ g ∈ gaps, cfg.lowFailUs ≤ g.1 ∧ g.1 < 2 ^ Config.tsWidth) → meetsBudget budget t (gapEdges t gaps)) ∧
    (∀ (s : State) (es : List EdgeEvent) (rest : List Input), cfg.wf = true → s.phase = .locked →
      s.inputs = edges es ++ rest →
      (∀ t ∈ runSteps cfg es.length s, t.phase = .locked) → outputs (runSteps cfg es.length s) = [] →
      meetsBudget budget s.prevTs es)
end

