-- ==== Sys2Proof/Laws/Cells.lean ====
section
/-! SUPPORT. The cells of the bit buffer: read after write, the cleared buffer, and extensionality; then the field primitive. -/

namespace Sys2Proof.Machine

@[simp] theorem cell_clearedBuffer (i : Nat) : cell clearedBuffer i = false := by
  simp [cell, clearedBuffer]

/-- Read after write: the written cell holds the value, every other cell what it held. -/
theorem cell_setCell (buf : BitBuffer) (i j : Nat) (b : Bool) (hi : i < Config.packetLength) :
    cell (setCell buf i b) j = if j = i then b else cell buf j := by
  have h1 : ((1 : BitBuffer) <<< i).getLsbD j = decide (j = i) := by
    rw [Bool.eq_iff_iff]
    simp [BitVec.getLsbD_shiftLeft, BitVec.getLsbD_one]
    simp only [Config.packetLength] at hi ⊢
    omega
  unfold cell setCell
  cases b
  · simp only [Bool.false_eq_true, ite_false, BitVec.getLsbD_and, BitVec.getLsbD_not, h1]
    by_cases h : j = i
    · simp [h]
    · by_cases hj : j < Config.packetLength
      · simp [h, hj]
      · simp [h, hj, BitVec.getLsbD_of_ge buf j (by omega)]
  · by_cases h : j = i
    · rw [if_pos rfl, BitVec.getLsbD_or, h1]; simp [h]
    · rw [if_pos rfl, BitVec.getLsbD_or, h1]; simp [h]

@[simp] theorem cell_setCell_self (buf : BitBuffer) (i : Nat) (b : Bool) (hi : i < Config.packetLength) :
    cell (setCell buf i b) i = b := by simp [cell_setCell buf i i b hi]

theorem cell_setCell_ne (buf : BitBuffer) (i j : Nat) (b : Bool) (hi : i < Config.packetLength) (h : j ≠ i) :
    cell (setCell buf i b) j = cell buf j := by simp [cell_setCell buf i j b hi, h]

/-- No cell lies at or above position 44 (R50). -/
theorem cell_of_ge (buf : BitBuffer) (i : Nat) (hi : Config.packetLength ≤ i) : cell buf i = false :=
  BitVec.getLsbD_of_ge buf i hi

/-- Buffers with equal cells are equal. -/
theorem buffer_ext (b c : BitBuffer) (h : ∀ i < Config.packetLength, cell b i = cell c i) : b = c :=
  BitVec.eq_of_getLsbD_eq fun i hi => h i hi

@[simp] theorem extract_zero (buf : BitBuffer) (start : Nat) : extract buf start 0 = 0 := rfl

theorem extract_succ (buf : BitBuffer) (start w : Nat) :
    extract buf start (w + 1) = 2 * extract buf start w + (cell buf (start + w)).toNat := rfl

/-- A field of `width` bits is below 2^width (R150). -/
theorem extract_lt (buf : BitBuffer) (start width : Nat) : extract buf start width < 2 ^ width := by
  induction width with
  | zero => simp
  | succ w ih =>
    have : (cell buf (start + w)).toNat ≤ 1 := Bool.toNat_le _
    rw [extract_succ, pow_succ]
    omega

/-- A field depends on its own cells only (R150). -/
theorem extract_congr (b c : BitBuffer) (start width : Nat)
    (h : ∀ i, start ≤ i → i < start + width → cell b i = cell c i) : extract b start width = extract c start width := by
  induction width with
  | zero => simp
  | succ w ih =>
    rw [extract_succ, extract_succ, ih fun i h1 h2 => h i h1 (by omega), h (start + w) (by omega) (by omega)]

/-- Bit `j` of a field, counted from its least significant bit, is the cell `j` before its last (R150). -/
theorem extract_testBit (buf : BitBuffer) (start width j : Nat) (hj : j < width) :
    (extract buf start width).testBit j = cell buf (start + (width - 1 - j)) := by
  induction width generalizing j with
  | zero => omega
  | succ w ih =>
    rw [extract_succ]
    cases j with
    | zero => cases hc : cell buf (start + w) <;> simp [Nat.testBit, Nat.shiftRight_eq_div_pow, hc]
    | succ j =>
      have hdiv : (2 * extract buf start w + (cell buf (start + w)).toNat) / 2 = extract buf start w := by
        have : (cell buf (start + w)).toNat ≤ 1 := Bool.toNat_le _
        omega
      rw [Nat.testBit_succ, hdiv, ih j (by omega)]
      congr 1
      omega

/-- A field's bits are its cells, the first being the most significant (R150). -/
theorem getLsbD_ofNat_extract (buf : BitBuffer) (start width j : Nat) (hj : j < width) :
    (BitVec.ofNat width (extract buf start width)).getLsbD j = cell buf (start + (width - 1 - j)) := by
  rw [BitVec.getLsbD_ofNat, extract_testBit buf start width j hj]
  simp [hj]

/-- The field map never loses a bit: each field's number is what `extract` gives (R151 to R159). -/
theorem ofNat_extract_toNat (buf : BitBuffer) (start width : Nat) :
    (BitVec.ofNat width (extract buf start width)).toNat = extract buf start width := by
  rw [BitVec.toNat_ofNat, Nat.mod_eq_of_lt (extract_lt buf start width)]

/-- The cells that `encodeFields` writes, one by one (R79). -/
theorem cell_cellsOfWord (fr : BitVec Config.packetLength) (n i : Nat) (hn : n ≤ Config.packetLength) :
    cell (cellsOfWord fr n) i = if i < n then fr.getLsbD (Config.packetLength - 1 - i) else false := by
  induction n with
  | zero => simp [cellsOfWord]
  | succ n ih =>
    rw [cellsOfWord, cell_setCell _ _ _ _ (by omega), ih (by omega)]
    by_cases h : i = n
    · simp [h]
    · have : (i < n + 1) ↔ (i < n) := by omega
      simp [h, this]

end Sys2Proof.Machine
end

