-- ==== Sys2Proof/Laws/State.lean ====
section
/-! SUPPORT. One lemma per field per update of State, so that no proof unfolds an update; then the reset state field by field
(R34). -/

namespace Sys2Proof.Machine

@[simp] theorem State.setPhase_phase (s : State) (v : Phase) : (s.setPhase v).phase = v := rfl
@[simp] theorem State.setPhase_bitIndex (s : State) (v : Phase) : (s.setPhase v).bitIndex = s.bitIndex := rfl
@[simp] theorem State.setPhase_buf (s : State) (v : Phase) : (s.setPhase v).buf = s.buf := rfl
@[simp] theorem State.setPhase_prevTs (s : State) (v : Phase) : (s.setPhase v).prevTs = s.prevTs := rfl
@[simp] theorem State.setPhase_lastSym (s : State) (v : Phase) : (s.setPhase v).lastSym = s.lastSym := rfl
@[simp] theorem State.setPhase_inputs (s : State) (v : Phase) : (s.setPhase v).inputs = s.inputs := rfl
@[simp] theorem State.setPhase_out (s : State) (v : Phase) : (s.setPhase v).out = s.out := rfl

@[simp] theorem State.setBitIndex_phase (s : State) (v : BitVec 6) : (s.setBitIndex v).phase = s.phase := rfl
@[simp] theorem State.setBitIndex_bitIndex (s : State) (v : BitVec 6) : (s.setBitIndex v).bitIndex = v := rfl
@[simp] theorem State.setBitIndex_buf (s : State) (v : BitVec 6) : (s.setBitIndex v).buf = s.buf := rfl
@[simp] theorem State.setBitIndex_prevTs (s : State) (v : BitVec 6) : (s.setBitIndex v).prevTs = s.prevTs := rfl
@[simp] theorem State.setBitIndex_lastSym (s : State) (v : BitVec 6) : (s.setBitIndex v).lastSym = s.lastSym := rfl
@[simp] theorem State.setBitIndex_inputs (s : State) (v : BitVec 6) : (s.setBitIndex v).inputs = s.inputs := rfl
@[simp] theorem State.setBitIndex_out (s : State) (v : BitVec 6) : (s.setBitIndex v).out = s.out := rfl

@[simp] theorem State.setBuf_phase (s : State) (v : BitBuffer) : (s.setBuf v).phase = s.phase := rfl
@[simp] theorem State.setBuf_bitIndex (s : State) (v : BitBuffer) : (s.setBuf v).bitIndex = s.bitIndex := rfl
@[simp] theorem State.setBuf_buf (s : State) (v : BitBuffer) : (s.setBuf v).buf = v := rfl
@[simp] theorem State.setBuf_prevTs (s : State) (v : BitBuffer) : (s.setBuf v).prevTs = s.prevTs := rfl
@[simp] theorem State.setBuf_lastSym (s : State) (v : BitBuffer) : (s.setBuf v).lastSym = s.lastSym := rfl
@[simp] theorem State.setBuf_inputs (s : State) (v : BitBuffer) : (s.setBuf v).inputs = s.inputs := rfl
@[simp] theorem State.setBuf_out (s : State) (v : BitBuffer) : (s.setBuf v).out = s.out := rfl

@[simp] theorem State.setPrevTs_phase (s : State) (v : Timestamp) : (s.setPrevTs v).phase = s.phase := rfl
@[simp] theorem State.setPrevTs_bitIndex (s : State) (v : Timestamp) : (s.setPrevTs v).bitIndex = s.bitIndex := rfl
@[simp] theorem State.setPrevTs_buf (s : State) (v : Timestamp) : (s.setPrevTs v).buf = s.buf := rfl
@[simp] theorem State.setPrevTs_prevTs (s : State) (v : Timestamp) : (s.setPrevTs v).prevTs = v := rfl
@[simp] theorem State.setPrevTs_lastSym (s : State) (v : Timestamp) : (s.setPrevTs v).lastSym = s.lastSym := rfl
@[simp] theorem State.setPrevTs_inputs (s : State) (v : Timestamp) : (s.setPrevTs v).inputs = s.inputs := rfl
@[simp] theorem State.setPrevTs_out (s : State) (v : Timestamp) : (s.setPrevTs v).out = s.out := rfl

@[simp] theorem State.setLastSym_phase (s : State) (v : Symbol) : (s.setLastSym v).phase = s.phase := rfl
@[simp] theorem State.setLastSym_bitIndex (s : State) (v : Symbol) : (s.setLastSym v).bitIndex = s.bitIndex := rfl
@[simp] theorem State.setLastSym_buf (s : State) (v : Symbol) : (s.setLastSym v).buf = s.buf := rfl
@[simp] theorem State.setLastSym_prevTs (s : State) (v : Symbol) : (s.setLastSym v).prevTs = s.prevTs := rfl
@[simp] theorem State.setLastSym_lastSym (s : State) (v : Symbol) : (s.setLastSym v).lastSym = v := rfl
@[simp] theorem State.setLastSym_inputs (s : State) (v : Symbol) : (s.setLastSym v).inputs = s.inputs := rfl
@[simp] theorem State.setLastSym_out (s : State) (v : Symbol) : (s.setLastSym v).out = s.out := rfl

@[simp] theorem State.setInputs_phase (s : State) (v : List Input) : (s.setInputs v).phase = s.phase := rfl
@[simp] theorem State.setInputs_bitIndex (s : State) (v : List Input) : (s.setInputs v).bitIndex = s.bitIndex := rfl
@[simp] theorem State.setInputs_buf (s : State) (v : List Input) : (s.setInputs v).buf = s.buf := rfl
@[simp] theorem State.setInputs_prevTs (s : State) (v : List Input) : (s.setInputs v).prevTs = s.prevTs := rfl
@[simp] theorem State.setInputs_lastSym (s : State) (v : List Input) : (s.setInputs v).lastSym = s.lastSym := rfl
@[simp] theorem State.setInputs_inputs (s : State) (v : List Input) : (s.setInputs v).inputs = v := rfl
@[simp] theorem State.setInputs_out (s : State) (v : List Input) : (s.setInputs v).out = s.out := rfl

@[simp] theorem State.setOut_phase (s : State) (v : List OutEvent) : (s.setOut v).phase = s.phase := rfl
@[simp] theorem State.setOut_bitIndex (s : State) (v : List OutEvent) : (s.setOut v).bitIndex = s.bitIndex := rfl
@[simp] theorem State.setOut_buf (s : State) (v : List OutEvent) : (s.setOut v).buf = s.buf := rfl
@[simp] theorem State.setOut_prevTs (s : State) (v : List OutEvent) : (s.setOut v).prevTs = s.prevTs := rfl
@[simp] theorem State.setOut_lastSym (s : State) (v : List OutEvent) : (s.setOut v).lastSym = s.lastSym := rfl
@[simp] theorem State.setOut_inputs (s : State) (v : List OutEvent) : (s.setOut v).inputs = s.inputs := rfl
@[simp] theorem State.setOut_out (s : State) (v : List OutEvent) : (s.setOut v).out = v := rfl

@[simp] theorem State.reset_phase : State.reset.phase = .unlocked := rfl
@[simp] theorem State.reset_bitIndex : State.reset.bitIndex = 0 := rfl
@[simp] theorem State.reset_buf : State.reset.buf = 0 := rfl
@[simp] theorem State.reset_prevTs : State.reset.prevTs = 0 := rfl
@[simp] theorem State.reset_lastSym : State.reset.lastSym = .ignored := rfl
@[simp] theorem State.reset_inputs : State.reset.inputs = [] := rfl
@[simp] theorem State.reset_out : State.reset.out = [] := rfl

/-- Two states with equal fields are equal. -/
theorem State.eq_of_fields (s t : State) (h1 : s.phase = t.phase) (h2 : s.bitIndex = t.bitIndex) (h3 : s.buf = t.buf)
    (h4 : s.prevTs = t.prevTs) (h5 : s.lastSym = t.lastSym) (h6 : s.inputs = t.inputs) (h7 : s.out = t.out) : s = t := by
  cases s; cases t; simp_all

end Sys2Proof.Machine
end

