-- ==== Sys2Proof/Laws/Ops.lean ====
section
/-! SUPPORT. What each shared operation can do, said once: the condition of the frame-complete check, the sequencing of
outcomes, the transition rows, the append, the interpreter rows and FRAME_COMPLETE. -/

namespace Sys2Proof.Machine

@[simp] theorem andThen_next (s : State) (k : State → Result) : andThen (.next s) k = k s := rfl
@[simp] theorem andThen_refused (e : Refusal) (k : State → Result) : andThen (.refused e) k = .refused e := rfl

/-- A sequence answers next only through a next state in the middle. -/
theorem andThen_eq_next (r : Result) (k : State → Result) (t : State) :
    andThen r k = .next t ↔ ∃ s, r = .next s ∧ k s = .next t := by
  cases r <;> simp [andThen]

/-- The frame-complete condition in words (R121). -/
theorem frameReady_iff (s : State) :
    frameReady s = true ↔ s.phase = .locked ∧ s.bitIndex.toNat = Config.packetLength := by
  simp [frameReady]

/-- The frame-complete condition reads the phase and the index only. -/
theorem frameReady_congr (s t : State) (h1 : s.phase = t.phase) (h2 : s.bitIndex = t.bitIndex) :
    frameReady s = frameReady t := by simp [frameReady, h1, h2]

theorem frameReady_of_unlocked (s : State) (h : s.phase = .unlocked) : frameReady s = false := by
  simp [frameReady, h]

/-- A transition row answers next exactly in the phase its selector names (R84, R129). -/
theorem inPhase_eq_next (p : Phase) (sym : Symbol) (f : State → State) (s t : State) :
    inPhase p sym f s = .next t ↔ s.phase = p ∧ f s = t := by
  unfold inPhase
  split <;> simp_all

theorem inPhase_of_phase (p : Phase) (sym : Symbol) (f : State → State) (s : State) (h : s.phase = p) :
    inPhase p sym f s = .next (f s) := by simp [inPhase, h]

@[simp] theorem lockFrame_phase (s : State) : (lockFrame s).phase = .locked := rfl
@[simp] theorem lockFrame_bitIndex (s : State) : (lockFrame s).bitIndex = 0 := rfl
@[simp] theorem lockFrame_buf (s : State) : (lockFrame s).buf = clearedBuffer := rfl
@[simp] theorem lockFrame_prevTs (s : State) : (lockFrame s).prevTs = s.prevTs := rfl
@[simp] theorem lockFrame_lastSym (s : State) : (lockFrame s).lastSym = s.lastSym := rfl
@[simp] theorem lockFrame_inputs (s : State) : (lockFrame s).inputs = s.inputs := rfl
@[simp] theorem lockFrame_out (s : State) : (lockFrame s).out = s.out := rfl

@[simp] theorem releaseFrame_phase (s : State) : (releaseFrame s).phase = .unlocked := rfl
@[simp] theorem releaseFrame_bitIndex (s : State) : (releaseFrame s).bitIndex = s.bitIndex := rfl
@[simp] theorem releaseFrame_buf (s : State) : (releaseFrame s).buf = s.buf := rfl
@[simp] theorem releaseFrame_prevTs (s : State) : (releaseFrame s).prevTs = s.prevTs := rfl
@[simp] theorem releaseFrame_lastSym (s : State) : (releaseFrame s).lastSym = s.lastSym := rfl
@[simp] theorem releaseFrame_inputs (s : State) : (releaseFrame s).inputs = s.inputs := rfl
@[simp] theorem releaseFrame_out (s : State) : (releaseFrame s).out = s.out := rfl

@[simp] theorem emit_phase (e : OutEvent) (s : State) : (emit e s).phase = s.phase := rfl
@[simp] theorem emit_bitIndex (e : OutEvent) (s : State) : (emit e s).bitIndex = s.bitIndex := rfl
@[simp] theorem emit_buf (e : OutEvent) (s : State) : (emit e s).buf = s.buf := rfl
@[simp] theorem emit_prevTs (e : OutEvent) (s : State) : (emit e s).prevTs = s.prevTs := rfl
@[simp] theorem emit_lastSym (e : OutEvent) (s : State) : (emit e s).lastSym = s.lastSym := rfl
@[simp] theorem emit_inputs (e : OutEvent) (s : State) : (emit e s).inputs = s.inputs := rfl
@[simp] theorem emit_out (e : OutEvent) (s : State) : (emit e s).out = s.out ++ [e] := rfl

/-- An append with room: it writes the cell at the index and moves the index on by one (R125, R126). -/
theorem appendBit_of_lt (b : Bool) (s : State) (h : s.bitIndex.toNat < Config.packetLength) :
    appendBit b s = (s.setBuf (setCell s.buf s.bitIndex.toNat b)).setBitIndex (s.bitIndex + 1) := by
  simp only [appendBit, h, ite_true]

/-- An append at a full buffer does nothing: the guard (R125, R126). -/
theorem appendBit_of_ge (b : Bool) (s : State) (h : Config.packetLength ≤ s.bitIndex.toNat) : appendBit b s = s := by
  simp only [appendBit, Nat.not_lt.mpr h, ite_false]

@[simp] theorem appendBit_phase (b : Bool) (s : State) : (appendBit b s).phase = s.phase := by
  unfold appendBit; split <;> rfl
@[simp] theorem appendBit_prevTs (b : Bool) (s : State) : (appendBit b s).prevTs = s.prevTs := by
  unfold appendBit; split <;> rfl
@[simp] theorem appendBit_lastSym (b : Bool) (s : State) : (appendBit b s).lastSym = s.lastSym := by
  unfold appendBit; split <;> rfl
@[simp] theorem appendBit_inputs (b : Bool) (s : State) : (appendBit b s).inputs = s.inputs := by
  unfold appendBit; split <;> rfl
@[simp] theorem appendBit_out (b : Bool) (s : State) : (appendBit b s).out = s.out := by
  unfold appendBit; split <;> rfl

/-- The index moves on by one, and does not wrap (R125). -/
theorem succ_toNat (i : BitVec 6) (h : i.toNat < Config.packetLength) : (i + 1).toNat = i.toNat + 1 := by
  simp only [Config.packetLength] at h
  bv_omega

/-- What an interpreter row needs and does (R84, R161). -/
theorem onCompletedFrame_eq_next (kind : Nibble) (f : FieldRecord → State → State) (s t : State) :
    onCompletedFrame kind f s = .next t ↔
      frameReady s = true ∧ (decodeFields s.buf).measureKind = kind ∧ f (decodeFields s.buf) s = t := by
  unfold onCompletedFrame
  split
  · dsimp only
    split <;> simp_all
  · simp_all

/-- The interpreter operation of a completed frame's own kind: it adds the record's reading, if it has one (R177). -/
theorem runInterpreter_completed (s : State) (h : frameReady s = true) :
    runInterpreter (decodeFields s.buf).measureKind s =
      .next (match interpret (decodeFields s.buf) with
        | some v => emit (.reading v) s
        | none => s) := by
  unfold runInterpreter interpret
  by_cases h0 : (decodeFields s.buf).measureKind = 0
  · simp [h0, execTemperature, onCompletedFrame, h]
  · by_cases h14 : (decodeFields s.buf).measureKind = 14
    · simp [h14, execHumidity, onCompletedFrame, h]
    · have hk : recognizedKind (decodeFields s.buf).measureKind = false := by
        simp only [recognizedKind, Bool.or_eq_false_iff, beq_eq_false_iff_ne]
        exact ⟨h0, h14⟩
      simp only [h0, h14, hk, ite_false, execUnrecognized, onCompletedFrame, h, ite_true, Bool.false_eq_true]

/-- FRAME_COMPLETE on a complete frame: its events are put out and the phase is UNLOCKED (R121). -/
theorem execFrameComplete_ready (s : State) (h : frameReady s = true) :
    execFrameComplete s = .next ((s.setOut (s.out ++ Safety.frameEvents (decodeFields s.buf))).setPhase .unlocked) := by
  have hr : frameReady (emit (.frame (decodeFields s.buf)) s) = true := h
  have hi := runInterpreter_completed (emit (.frame (decodeFields s.buf)) s) hr
  rw [emit_buf] at hi
  simp only [execFrameComplete, h, ite_true, hi, andThen_next, Safety.frameEvents]
  cases interpret (decodeFields s.buf) <;> simp [releaseFrame, emit, State.setOut, State.setPhase]

theorem execFrameComplete_not_ready (s : State) (h : frameReady s = false) :
    execFrameComplete s = .refused .frameNotComplete := by simp [execFrameComplete, h]

end Sys2Proof.Machine
end

