-- ==== Sys2Proof/Laws/PerInstr.lean ====
section
/-! SUPPORT. Per operation: a well-formed operation's word decodes, in its own format, to that operation (R84). -/

namespace Sys2Proof.Laws.RoundTrip

/-- Decoding the operation's word gives it back. -/
def Statement (i : Instr) : Prop := i.wf = true → decode i.format (encode i) = .ok i

theorem lock : Statement .lock := fun _ => rfl
theorem idleUnlocked : Statement .idleUnlocked := fun _ => rfl
theorem appendOne : Statement .appendOne := fun _ => rfl
theorem appendZero : Statement .appendZero := fun _ => rfl
theorem abort : Statement .abort := fun _ => rfl
theorem idleLocked : Statement .idleLocked := fun _ => rfl
theorem frameComplete : Statement .frameComplete := fun _ => rfl
theorem reset : Statement .reset := fun _ => rfl
theorem temperature : Statement .temperature := fun _ => rfl
theorem humidity : Statement .humidity := fun _ => rfl
theorem unrecognized (kind : Nibble) : Statement (.unrecognized kind) := by
  unfold Statement
  revert kind
  decide

end Sys2Proof.Laws.RoundTrip
end

