-- ==== Sys2Proof/Laws/Step.lean ====
section
/-! SUPPORT. What a step can do, said once: the frame-complete check, the transition, the edge step and the step on one input,
each as an equation that names the next state. Proofs cite these and never unfold the step. -/

namespace Sys2Proof.Machine

open Sys2Proof.Safety

/-- The state check's word is a row exactly when a frame is complete (R84, R121). -/
theorem decode_stateCheckWord (s : State) :
    decode .stateCheck (stateCheckWord s) =
      if frameReady s then .ok .frameComplete else .error (.frameNotComplete (s.phase.bit ++ s.bitIndex)) := by
  have key : ∀ (p : Phase) (i : BitVec 6), decode .stateCheck ((0 : BitVec 1) ++ p.bit ++ i) =
      if (p == .locked && i.toNat == Config.packetLength) then .ok .frameComplete
      else .error (.frameNotComplete (p.bit ++ i)) := by
    intro p i
    have hlt : ((0 : BitVec 1) ++ p.bit ++ i).toNat < 2 ^ Format.stateCheck.width := by
      cases p <;> revert i <;> decide
    have hext : ((0 : BitVec 1) ++ p.bit ++ i).extractLsb' 0 7 = p.bit ++ i := by
      cases p <;> revert i <;> decide
    have hrow : (p.bit ++ i = (0b1101100 : BitVec 7)) ↔ (p == .locked && i.toNat == Config.packetLength) = true := by
      cases p <;> revert i <;> decide
    simp only [decode, hlt, ite_true, hext, decodeStateCheck]
    by_cases h : (p == .locked && i.toNat == Config.packetLength) = true
    · rw [if_pos (hrow.mpr h), if_pos h]
    · rw [if_neg (fun hc => h (hrow.mp hc)), if_neg h]
  exact key s.phase s.bitIndex

/-- A selector's word decodes to the operation map's cell (R74, R84). -/
theorem decode_selectorWord (p : Phase) (sym : Symbol) :
    decode .phaseSymbol (selectorWord p sym) = transitionOf p sym := by
  cases p <;> cases sym <;> rfl

/-- measureKind's word selects TEMPERATURE, HUMIDITY or UNRECOGNIZED (R77). -/
theorem decode_kindWord (k : Nibble) :
    decode .measureKind (kindWord k) =
      if k = 0 then .ok .temperature else if k = 14 then .ok .humidity else .ok (.unrecognized k) := by
  have hlt : (kindWord k).toNat < 2 ^ Format.measureKind.width := by revert k; decide
  have hext : (kindWord k).extractLsb' 0 4 = k := by revert k; decide
  simp only [decode, hlt, ite_true, hext, decodeMeasureKind]

/-- The state after part (1) of R120. -/
def afterCheck (s : State) : State :=
  if frameReady s then (s.setOut (s.out ++ frameEvents (decodeFields s.buf))).setPhase .unlocked else s

/-- The frame-complete check always answers next (R121). -/
theorem frameCheck_eq (s : State) : frameCheck s = .next (afterCheck s) := by
  unfold frameCheck afterCheck
  rw [decode_stateCheckWord]
  by_cases h : frameReady s = true
  · simp only [h, ite_true]
    exact execFrameComplete_ready s h
  · simp only [h, Bool.false_eq_true, ite_false]

/-- The transition's effect on the state, by symbol and phase (R74). -/
def transitioned (sym : Symbol) (s : State) : State :=
  match s.phase, sym with
  | .unlocked, .lockSync => lockFrame s
  | .locked, .bitOne => appendBit true s
  | .locked, .bitZero => appendBit false s
  | .locked, .abort => releaseFrame s
  | _, _ => s

/-- What the classifier can yield in a phase (R109). -/
theorem classify_range (cfg : Cfg) (d : Timestamp) (level : Level) (p : Phase) :
    (p = .unlocked → classify cfg d level p = .lockSync ∨ classify cfg d level p = .ignored) ∧
    (p = .locked → classify cfg d level p ≠ .lockSync) := by
  constructor
  · rintro rfl
    unfold classify
    dsimp only
    split <;> simp
  · rintro rfl
    unfold classify
    dsimp only
    split
    · simp
    · cases level
      · dsimp only
        split
        · simp
        · split <;> simp
      · simp

/-- Parts (2) to (4) always answer next: the classifier never yields an unreachable pair (R109, R129). -/
theorem classifyAndMove_eq (cfg : Cfg) (e : EdgeEvent) (s : State) :
    classifyAndMove cfg e s =
      .next ((transitioned (classify cfg (duration e.ts s.prevTs) e.level s.phase) (s.setPrevTs e.ts)).setLastSym
        (classify cfg (duration e.ts s.prevTs) e.level s.phase)) := by
  have hr := classify_range cfg (duration e.ts s.prevTs) e.level s.phase
  unfold classifyAndMove runRow
  simp only [decode_selectorWord]
  cases hp : s.phase with
  | unlocked =>
    rw [hp] at hr
    rcases hr.1 rfl with h | h <;> rw [h] <;>
      simp [transitionOf, exec, execLock, execIdleUnlocked, inPhase, hp, transitioned]
  | locked =>
    rw [hp] at hr
    have h := hr.2 rfl
    cases hs : classify cfg (duration e.ts s.prevTs) e.level .locked with
    | lockSync => exact absurd hs h
    | ignored | bitOne | bitZero | abort =>
      simp [transitionOf, exec, execAppendOne, execAppendZero, execAbort, execIdleLocked, inPhase, hp, transitioned]

/-- The symbol of an edge step from `s`: classified with the phase the check leaves (R101, R120). -/
def stepSymbol (cfg : Cfg) (e : EdgeEvent) (s : State) : Symbol :=
  classify cfg (duration e.ts s.prevTs) e.level (if frameReady s then .unlocked else s.phase)

/-- The next state of an edge step (R120). -/
def afterEdge (cfg : Cfg) (e : EdgeEvent) (s : State) : State :=
  (transitioned (stepSymbol cfg e s) ((afterCheck (s.setOut [])).setPrevTs e.ts)).setLastSym (stepSymbol cfg e s)

/-- Every edge step answers next, and this is the state it answers (R120, R200). -/
theorem edgeStep_eq (cfg : Cfg) (e : EdgeEvent) (s : State) : edgeStep cfg e s = .next (afterEdge cfg e s) := by
  have hp : (afterCheck (s.setOut [])).phase = if frameReady s then .unlocked else s.phase := by
    have : frameReady (s.setOut []) = frameReady s := rfl
    unfold afterCheck
    rw [this]
    split <;> rfl
  have ht : (afterCheck (s.setOut [])).prevTs = s.prevTs := by
    unfold afterCheck; split <;> rfl
  unfold edgeStep
  rw [frameCheck_eq, andThen_next, classifyAndMove_eq, hp, ht]
  rfl

/-- The step on an edge event (R120). -/
theorem stepWith_edge (cfg : Cfg) (s : State) (w : EventWord) (rest : List Input) (hc : cfg.wf = true)
    (hi : s.inputs = .edge w :: rest) :
    stepWith cfg s = .next (afterEdge cfg (decodeEvent w) (s.setInputs rest)) := by
  simp only [stepWith, hc, ite_true, hi, edgeStep_eq]

/-- The step on the reset input (R220). -/
theorem stepWith_reset (cfg : Cfg) (s : State) (rest : List Input) (hc : cfg.wf = true) (hi : s.inputs = .reset :: rest) :
    stepWith cfg s = .next (State.reset.setInputs rest) := by
  simp only [stepWith, hc, ite_true, hi]
  rfl

/-- The step with no input (R131, R213). -/
theorem stepWith_idle (cfg : Cfg) (s : State) (hc : cfg.wf = true) (hi : s.inputs = []) :
    stepWith cfg s = .next (s.setOut []) := by
  simp only [stepWith, hc, ite_true, hi]

theorem stepWith_refused (cfg : Cfg) (s : State) (hc : cfg.wf = false) :
    stepWith cfg s = .refused (.packetLength cfg.packetLength) := by simp [stepWith, hc]

/-- Everything a step can do, when it answers next. -/
theorem stepWith_cases (cfg : Cfg) (s t : State) (h : stepWith cfg s = .next t) :
    cfg.wf = true ∧
      ((s.inputs = [] ∧ t = s.setOut []) ∨
       (∃ rest, s.inputs = .reset :: rest ∧ t = State.reset.setInputs rest) ∨
       (∃ w rest, s.inputs = .edge w :: rest ∧ t = afterEdge cfg (decodeEvent w) (s.setInputs rest))) := by
  cases hc : cfg.wf with
  | false => rw [stepWith_refused cfg s hc] at h; cases h
  | true =>
    refine ⟨rfl, ?_⟩
    cases hi : s.inputs with
    | nil => rw [stepWith_idle cfg s hc hi] at h; cases h; exact .inl ⟨rfl, rfl⟩
    | cons x rest =>
      cases x with
      | reset => rw [stepWith_reset cfg s rest hc hi] at h; cases h; exact .inr (.inl ⟨rest, rfl, rfl⟩)
      | edge w => rw [stepWith_edge cfg s w rest hc hi] at h; cases h; exact .inr (.inr ⟨w, rest, rfl, rfl⟩)

/-! The fields of the next state of an edge step. -/

@[simp] theorem transitioned_prevTs (sym : Symbol) (s : State) : (transitioned sym s).prevTs = s.prevTs := by
  unfold transitioned; split <;> simp
@[simp] theorem transitioned_out (sym : Symbol) (s : State) : (transitioned sym s).out = s.out := by
  unfold transitioned; split <;> simp
@[simp] theorem transitioned_inputs (sym : Symbol) (s : State) : (transitioned sym s).inputs = s.inputs := by
  unfold transitioned; split <;> simp

@[simp] theorem afterEdge_prevTs (cfg : Cfg) (e : EdgeEvent) (s : State) : (afterEdge cfg e s).prevTs = e.ts := by
  simp [afterEdge]
@[simp] theorem afterEdge_lastSym (cfg : Cfg) (e : EdgeEvent) (s : State) :
    (afterEdge cfg e s).lastSym = stepSymbol cfg e s := by simp [afterEdge]
@[simp] theorem afterEdge_inputs (cfg : Cfg) (e : EdgeEvent) (s : State) : (afterEdge cfg e s).inputs = s.inputs := by
  unfold afterEdge afterCheck
  split <;> simp
/-- An edge step puts out the pending frame's events, and nothing else (R27, R122). -/
theorem afterEdge_out (cfg : Cfg) (e : EdgeEvent) (s : State) :
    (afterEdge cfg e s).out = if frameReady s then frameEvents (decodeFields s.buf) else [] := by
  have : frameReady (s.setOut []) = frameReady s := rfl
  unfold afterEdge afterCheck
  rw [this]
  split <;> simp

/-- An edge step with no frame pending: only the transition moves the synchronizer (R121). -/
theorem afterEdge_not_ready (cfg : Cfg) (e : EdgeEvent) (s : State) (h : frameReady s = false) :
    afterEdge cfg e s = (transitioned (stepSymbol cfg e s) ((s.setOut []).setPrevTs e.ts)).setLastSym (stepSymbol cfg e s) := by
  have h' : frameReady (s.setOut []) = false := h
  simp [afterEdge, afterCheck, h']

end Sys2Proof.Machine
end

