-- ==== Sys2Proof/Laws/Runs.lean ====
section
/-! SUPPORT. Runs and durations: a run unfolds step by step, splits where it is cut, and the duration of an event placed after a
timestamp is the distance it was placed at. -/

namespace Sys2Proof.Safety

open Sys2Proof.Machine

theorem runSteps_succ (cfg : Cfg) (n : Nat) (s t : State) (h : stepWith cfg s = .next t) :
    runSteps cfg (n + 1) s = t :: runSteps cfg n t := by
  simp only [runSteps, h]

@[simp] theorem finalState_nil (s : State) : finalState s [] = s := rfl

@[simp] theorem finalState_cons (s t : State) (run : List State) : finalState s (t :: run) = finalState t run :=
  List.getLastD_cons ..

/-- A run of `m + n` steps is a run of `m` steps and then one of `n` from where it ended, if no step was refused. -/
theorem runSteps_add (cfg : Cfg) (m n : Nat) (s : State) (hl : (runSteps cfg m s).length = m) :
    runSteps cfg (m + n) s = runSteps cfg m s ++ runSteps cfg n (finalState s (runSteps cfg m s)) := by
  induction m generalizing s with
  | zero => simp [runSteps]
  | succ m ih =>
    rw [Nat.succ_add_eq_add_succ, Nat.add_succ]
    cases hst : stepWith cfg s with
    | fault e => cases e
    | refused e =>
      unfold runSteps at hl
      rw [hst] at hl
      exact absurd hl (by simp)
    | next t =>
      rw [runSteps_succ _ _ _ _ hst] at hl ⊢
      rw [runSteps_succ _ _ _ _ hst, List.cons_append, ih t (Nat.succ.inj hl), finalState_cons]

@[simp] theorem bitsOf_nil : bitsOf [] = [] := rfl

theorem bitsOf_cons (sym : Symbol) (syms : List Symbol) : bitsOf (sym :: syms) = (bitOf sym).toList ++ bitsOf syms := by
  unfold bitsOf
  cases h : bitOf sym <;> simp [h]

/-- The duration of an event `d` microseconds after `t` (R100). -/
theorem duration_after (t : Timestamp) (d : Nat) :
    duration (t + BitVec.ofNat Config.tsWidth d) t = BitVec.ofNat Config.tsWidth d := by
  unfold duration
  rw [BitVec.add_comm, BitVec.add_sub_cancel]

end Sys2Proof.Safety
end

