-- ==== Sys2Proof/Machine/Render.lean ====
section
/-! DEFINITION. The text of a reading, R178. The rule is informative and the formatting layer lies outside the core (R5): no
other definition of the model uses this file. -/

namespace Sys2Proof.Machine

/-- The two fraction digits of a number of hundredths (R178). -/
def twoDigits (n : Nat) : String := toString (n / 10 % 10) ++ toString (n % 10)

/-- The line a host prints for a reading (R178, decision D17). An unrecognized unit has no line (R173). -/
def renderReading (v : Reading) : String :=
  let n := v.value100.natAbs
  let sign := if v.value100 < 0 then "-" else ""
  match v.unit with
  | .unrecognized => ""
  | .fahrenheit => sign ++ toString (n / 100) ++ "." ++ twoDigits n ++ "F\n"
  | .percent => sign ++ toString (n / 100) ++ "." ++ toString (n / 10 % 10) ++ "%\n"

end Sys2Proof.Machine
end

