-- ==== Sys2Proof/Tests/Slice0.lean ====
section
/-! SUPPORT. Tests, expected values from spec/ only (the section is named at each), then the smoke tests of the checks, then for
every statement with hypotheses a witness that meets them together. -/

namespace Sys2Proof.Tests

open Sys2Proof.Machine Sys2Proof.Safety

/-! ## Helpers -/

/-- Packet A of 95_test_vectors.md §2.4, written out from its bit string (position 0 is the rightmost digit here). -/
def packetA : BitBuffer := 0b10011010010011001010010011101010000010100101
/-- Packet B of 95_test_vectors.md §2.4. -/
def packetB : BitBuffer := 0b11000000101000000000101001101010011110100101
/-- Packet D of 95_test_vectors.md §2.4. -/
def packetD : BitBuffer := 0b00000100100011000100100011101010111010100101

/-- A state with nothing waiting, the previous edge at 1000. -/
def at1000 (phase : Phase) (bitIndex : BitVec 6) (buf : BitBuffer) : State :=
  ⟨phase, bitIndex, buf, 1000, .ignored, [], []⟩

/-- `s` with one edge waiting, `d` microseconds after the previous one. -/
def withEdge (s : State) (d : Nat) (level : Level) : State :=
  s.setInputs [.edge (encodeEvent (eventAfter s.prevTs d level))]

/-- What a test looks at after one step. -/
structure Seen where
  phase : Phase
  bitIndex : BitVec 6
  buf : BitBuffer
  lastSym : Symbol
  out : List OutEvent
  deriving DecidableEq, Repr

/-- Phase, index, cells, symbol and output after one step. -/
def after (s : State) : Option Seen :=
  (nextOf (step s)).map fun t => ⟨t.phase, t.bitIndex, t.buf, t.lastSym, t.out⟩

/-- The record of packet A (95_test_vectors.md §2.4). -/
def recordA : FieldRecord := ⟨165, 0, 43, 1, 2, 5, 3, 37, 9⟩
/-- The record of packet B. -/
def recordB : FieldRecord := ⟨165, 14, 43, 0, 5, 0, 0, 80, 3⟩
/-- The record of packet D. -/
def recordD : FieldRecord := ⟨165, 7, 43, 1, 1, 2, 3, 18, 0⟩

/-! ## Decoding: words written out from spec/opcode_table.json -/

theorem test_decode_transitions :
    decode .phaseSymbol 0b0001 = .ok .lock ∧ decode .phaseSymbol 0b0000 = .ok .idleUnlocked ∧
    decode .phaseSymbol 0b1011 = .ok .appendOne ∧ decode .phaseSymbol 0b1010 = .ok .appendZero ∧
    decode .phaseSymbol 0b1100 = .ok .abort ∧ decode .phaseSymbol 0b1000 = .ok .idleLocked := by decide

theorem test_decode_check_and_reset :
    decode .stateCheck 0b1101100 = .ok .frameComplete ∧ decode .reset 0b1 = .ok .reset := by decide

theorem test_decode_kinds :
    decode .measureKind 0b0000 = .ok .temperature ∧ decode .measureKind 0b1110 = .ok .humidity ∧
    [1, 2, 3, 4, 5, 6, 7, 8, 9, 10, 11, 12, 13, 15].all
      (fun k => decode .measureKind (BitVec.ofNat 8 k) == .ok (.unrecognized (BitVec.ofNat 4 k))) = true := by decide

theorem test_decode_rejects :
    [0b101, 0b110, 0b111, 0b1101, 0b1110, 0b1111].all (fun w => match decode .phaseSymbol w with
      | .error (.reservedSymbol _) => true
      | _ => false) = true ∧
    decode .phaseSymbol 0b0011 = .error (.unreachablePair .unlocked .bitOne) ∧
    decode .phaseSymbol 0b0010 = .error (.unreachablePair .unlocked .bitZero) ∧
    decode .phaseSymbol 0b0100 = .error (.unreachablePair .unlocked .abort) ∧
    decode .phaseSymbol 0b1001 = .error (.unreachablePair .locked .lockSync) ∧
    decode .stateCheck 0b0101100 = .error (.frameNotComplete 0b0101100) ∧
    decode .stateCheck 0b1101011 = .error (.frameNotComplete 0b1101011) ∧
    decode .reset 0 = .error .resetNotAsserted ∧
    decode .phaseSymbol 16 = .error (.tooWide 16) ∧ decode .stateCheck 128 = .error (.tooWide 128) ∧
    decode .reset 2 = .error (.tooWide 2) ∧ decode .measureKind 16 = .error (.tooWide 16) := by decide

/-- The host's entry on the table's words, and the two formats that a width names (log entry 25). -/
theorem test_decodeTableWord :
    decodeTableWord 8 0b0001 = some .lock ∧ decodeTableWord 8 0b1011 = some .appendOne ∧
    decodeTableWord 8 0b1101100 = some .frameComplete ∧ decodeTableWord 8 0b1110 = some .humidity ∧
    decodeTableWord 1 1 = some .reset ∧ decodeTableWord 7 0b1101100 = some .frameComplete ∧
    decodeTableWord 8 0x80 = none := by decide

/-- A placed word runs in the very next step after reset, seen by its symbol or its output. -/
theorem test_placed_words_run :
    (after (State.reset.withFetchWord 8 0b0001)) = some ⟨.locked, 0, 0, .lockSync, []⟩ ∧
    (after (State.reset.withFetchWord 8 0b0000)) = some ⟨.unlocked, 0, 0, .ignored, []⟩ ∧
    (after (State.reset.withFetchWord 8 0b1011)) = some ⟨.locked, 1, 1, .bitOne, []⟩ ∧
    (after (State.reset.withFetchWord 8 0b1010)) = some ⟨.locked, 1, 0, .bitZero, []⟩ ∧
    (after (State.reset.withFetchWord 8 0b1100)) = some ⟨.unlocked, 0, 0, .abort, []⟩ ∧
    (after (State.reset.withFetchWord 8 0b1000)) = some ⟨.locked, 0, 0, .ignored, []⟩ ∧
    ((after (State.reset.withFetchWord 8 0b1110)).map fun r => r.out.length) = some 2 ∧
    ((after (placeInstr (.unrecognized 7) State.reset)).map fun r => r.out.length) = some 1 ∧
    ((after (placeInstr .temperature State.reset)).map fun r => r.out.getLast?) =
      some (some (.reading ⟨.fahrenheit, -5800⟩)) := by decide

/-! ## Words on the ports -/

/-- 30_encoding.md R70, and two rows of program P1 (95_test_vectors.md §3). -/
theorem test_event_words :
    encodeEvent ⟨1000, .low⟩ = 0x0000003E8 ∧ encodeEvent ⟨9000, .high⟩ = 0x100002328 ∧
    decodeEvent 0x10001960E = ⟨103950, .high⟩ := by decide

/-- 95_test_vectors.md §2.4: packets A, B and D, their words, and the positions of bits 8, 11, 19 and 43. -/
theorem test_decode_packets :
    decodeFields packetA = recordA ∧ frameWord recordA = 0xA5057253259 ∧
    decodeFields packetB = recordB ∧ frameWord recordB = 0xA5E56500503 ∧
    decodeFields packetD = recordD ∧ frameWord recordD = 0xA5757123120 ∧
    frameWord (decodeFields (setCell clearedBuffer 8 true)) = 0x00800000000 ∧
    frameWord (decodeFields (setCell clearedBuffer 11 true)) = 0x00100000000 ∧
    frameWord (decodeFields (setCell clearedBuffer 19 true)) = 0x00001000000 ∧
    frameWord (decodeFields (setCell clearedBuffer 43 true)) = 0x00000000001 := by decide

/-- R81: the unit in RD[17:16], a negative value in two's complement below it. -/
theorem test_reading_word :
    readingWord ⟨.fahrenheit, -1246⟩ = 0x1FB22 ∧ readingWord ⟨.percent, 5000⟩ = 0x21388 := by decide

/-- 95_test_vectors.md §2.2. -/
theorem test_durations :
    duration 5001 0 = 5001 ∧ duration 1550 1000 = 550 ∧ duration 250 4294966996 = 550 ∧
    duration 4 5 = 4294967295 ∧ duration 7 7 = 0 := by decide

/-! ## The classifier: 95_test_vectors.md §2.1 -/

/-- Every row of the table, unlocked and locked, low and high. -/
theorem test_classifier_table :
    [0, 1, 199, 200, 201, 449, 450, 650, 651, 1000, 1199, 1200, 1400, 1401, 1999, 2000, 2001, 4999, 5000].all
      (fun d => [Level.low, .high].all fun l => classify Config.default d l .unlocked == .ignored) = true ∧
    [5001, 9000, 4294967295].all
      (fun d => [Level.low, .high].all fun l => classify Config.default d l .unlocked == .lockSync) = true ∧
    [0, 1, 199, 2001, 4999, 5000, 5001, 9000, 4294967295].all
      (fun d => [Level.low, .high].all fun l => classify Config.default d l .locked == .abort) = true ∧
    [450, 451, 549, 550, 551, 649, 650].all (fun d => classify Config.default d .low .locked == .bitOne) = true ∧
    [1200, 1201, 1299, 1300, 1301, 1399, 1400].all (fun d => classify Config.default d .low .locked == .bitZero) = true ∧
    [200, 201, 449, 651, 1000, 1199, 1401, 1999, 2000].all
      (fun d => classify Config.default d .low .locked == .ignored) = true ∧
    [200, 450, 550, 650, 1000, 1200, 1300, 2000].all
      (fun d => classify Config.default d .high .locked == .ignored) = true := by decide

/-- R105's last corner case: where recalibrated bands overlap, the symbol is BIT_ONE. -/
theorem test_overlapping_bands :
    classify { Config.default with highPulseUs := 600 } 600 .low .locked = .bitOne := by decide

/-! ## One step per transition: 95_test_vectors.md §2.3 -/

/-- T1, T2 and T3. -/
theorem test_step_lock :
    after (withEdge (at1000 .unlocked 0 0) 8000 .high) = some ⟨.locked, 0, 0, .lockSync, []⟩ ∧
    after (withEdge (at1000 .unlocked 30 0x3FFFFFFF) 6000 .low) = some ⟨.locked, 0, 0, .lockSync, []⟩ := by decide

/-- T3 and T4. -/
theorem test_step_idle_unlocked :
    after (withEdge (at1000 .unlocked 0 0) 5000 .high) = some ⟨.unlocked, 0, 0, .ignored, []⟩ ∧
    after (withEdge (at1000 .unlocked 0 0) 550 .low) = some ⟨.unlocked, 0, 0, .ignored, []⟩ := by decide

/-- T6 and T8: cells 101 then 1011; the 44th bit completes packet A and puts nothing out. -/
theorem test_step_append_one :
    after (withEdge (at1000 .locked 3 0b101) 550 .low) = some ⟨.locked, 4, 0b1101, .bitOne, []⟩ ∧
    after (withEdge (at1000 .locked 43 (setCell packetA 43 false)) 550 .low) =
      some ⟨.locked, 44, packetA, .bitOne, []⟩ := by decide

/-- T7: cells 101 then 1010. -/
theorem test_step_append_zero :
    after (withEdge (at1000 .locked 3 0b101) 1300 .low) = some ⟨.locked, 4, 0b0101, .bitZero, []⟩ := by decide

/-- T11, T12 and T13. -/
theorem test_step_abort :
    after (withEdge (at1000 .locked 30 0x2AAAAAAA) 2500 .high) = some ⟨.unlocked, 30, 0x2AAAAAAA, .abort, []⟩ ∧
    after (withEdge (at1000 .locked 30 0x2AAAAAAA) 150 .low) = some ⟨.unlocked, 30, 0x2AAAAAAA, .abort, []⟩ ∧
    after (withEdge (at1000 .locked 5 0b11111) 6000 .high) = some ⟨.unlocked, 5, 0b11111, .abort, []⟩ := by decide

/-- T9 and T10. -/
theorem test_step_idle_locked :
    after (withEdge (at1000 .locked 5 0b11111) 1000 .high) = some ⟨.locked, 5, 0b11111, .ignored, []⟩ ∧
    after (withEdge (at1000 .locked 5 0b11111) 900 .low) = some ⟨.locked, 5, 0b11111, .ignored, []⟩ := by decide

/-- T14 to T17: the frame and its reading, and then the same edge classified while UNLOCKED. -/
theorem test_step_frame_complete :
    after (withEdge (at1000 .locked 44 packetA) 9000 .high) =
      some ⟨.locked, 0, 0, .lockSync, [.frame recordA, .reading ⟨.fahrenheit, -1246⟩]⟩ ∧
    after (withEdge (at1000 .locked 44 packetA) 1000 .high) =
      some ⟨.unlocked, 44, packetA, .ignored, [.frame recordA, .reading ⟨.fahrenheit, -1246⟩]⟩ ∧
    after (withEdge (at1000 .locked 44 packetA) 550 .low) =
      some ⟨.unlocked, 44, packetA, .ignored, [.frame recordA, .reading ⟨.fahrenheit, -1246⟩]⟩ ∧
    after (withEdge (at1000 .locked 44 packetA) 150 .high) =
      some ⟨.unlocked, 44, packetA, .ignored, [.frame recordA, .reading ⟨.fahrenheit, -1246⟩]⟩ := by decide

/-- The last step of programs P3 (95_test_vectors.md §3, Scenario B) and P4 (Scenario D). -/
theorem test_step_humidity_and_unrecognized :
    after (withEdge (at1000 .locked 44 packetB) 1000 .high) =
      some ⟨.unlocked, 44, packetB, .ignored, [.frame recordB, .reading ⟨.percent, 5000⟩]⟩ ∧
    after (withEdge (at1000 .locked 44 packetD) 9000 .high) =
      some ⟨.locked, 0, 0, .lockSync, [.frame recordD]⟩ := by decide

/-- R220: the table of R34, from a state where every field is different. -/
theorem test_step_reset :
    nextOf (step ⟨.locked, 44, packetA, 1000, .bitOne, [.reset], [.frame recordA]⟩) = some State.reset := by decide

/-- R131: with no input nothing happens to a pending frame. -/
theorem test_step_idle :
    nextOf (step (at1000 .locked 44 packetA)) = some (at1000 .locked 44 packetA) := by decide

/-- P7, first event: the first edge after reset locks by itself (R227). -/
theorem test_first_edge_locks :
    (nextOf (step (State.reset.setInputs [.edge 0x000004E20]))).map (fun t => (observe t, t.prevTs)) =
      some (⟨.locked, 0, .lockSync⟩, 20000) := by decide

/-- 95_test_vectors.md §2.5: values of the interpreter, kind by kind. -/
theorem test_interpreter_values :
    fahrenheit100 253 = -1246 ∧ fahrenheit100 0 = -5800 ∧ fahrenheit100 500 = 3200 ∧ fahrenheit100 322 = -4 ∧
    fahrenheit100 323 = 14 ∧ fahrenheit100 999 = 12182 ∧ fahrenheit100 1665 = 24170 ∧
    percent100 500 = 5000 ∧ percent100 999 = 9990 ∧ percent100 1665 = 16650 ∧
    dv10 ⟨0, 0, 0, 0, 15, 15, 15, 0, 0⟩ = 1665 ∧ interpret recordD = none := by decide

/-- R178's examples. -/
theorem test_render :
    renderReading ⟨.fahrenheit, -1246⟩ = "-12.46F\n" ∧ renderReading ⟨.fahrenheit, 3200⟩ = "32.00F\n" ∧
    renderReading ⟨.fahrenheit, -4⟩ = "-0.04F\n" ∧ renderReading ⟨.percent, 5000⟩ = "50.0%\n" := by decide

/-- R83: the first events of program P6, as its table lists them. -/
theorem test_edge_stream :
    (expandStream Config.default 0
      [.edge 1000 .low, .wait 8000 .high, .bit1 (some 1000), .bit0 (some 1000), .bit1 none, .wait 6000 .high]).map encodeEvent =
      [0x0000003E8, 0x100002328, 0x00000254E, 0x100002936, 0x000002E4A, 0x100003232, 0x000003458, 0x100004BC8] := by decide

/-! ## Smoke tests of the checks -/

theorem test_wellFormed_refuses_recognized_kinds :
    (Instr.unrecognized 0).wf = false ∧ (Instr.unrecognized 14).wf = false ∧ (Instr.unrecognized 15).wf = true := by decide

theorem test_wellFormed_refuses_packet_length :
    { Config.default with packetLength := 43 }.wf = false ∧ Config.default.wf = true := by decide

/-! ## Rows outside their place -/

theorem test_rows_refused :
    nextOf (exec .lock (at1000 .locked 0 0)) = none ∧ nextOf (exec .appendOne (at1000 .unlocked 0 0)) = none ∧
    nextOf (exec .frameComplete (at1000 .locked 43 0)) = none ∧
    nextOf (exec .temperature (at1000 .unlocked 44 packetA)) = none ∧
    nextOf (exec .temperature (at1000 .locked 44 packetB)) = none ∧
    nextOf (exec (.unrecognized 14) (at1000 .locked 44 packetB)) = none := by decide

/-! ## Witnesses: states and operands that meet the hypotheses of the statements together -/

theorem witness_InstrDecodeEncode :
    (Instr.unrecognized 1).wf = true ∧ (Instr.unrecognized 15).wf = true ∧
    decode .measureKind 0b1101 = .ok (.unrecognized 13) := by decide

theorem witness_OtherWordsRejected :
    5 ≤ (5 : BitVec 3).toNat ∧ 5 ≤ (7 : BitVec 3).toNat ∧ (0b1101011 : BitVec 7) ≠ 0b1101100 ∧
    2 ^ Format.reset.width ≤ (2 : BitVec 8).toNat ∧ 2 ^ Format.phaseSymbol.width ≤ (16 : BitVec 8).toNat ∧
    2 ^ Format.stateCheck.width ≤ (128 : BitVec 8).toNat ∧ 2 ^ Format.measureKind.width ≤ (255 : BitVec 8).toNat := by decide

theorem witness_ExtractReadsMsbFirst :
    ∀ i < 8, cell (BitVec.allOnes Config.packetLength) (36 + i) = true := by decide

theorem witness_PortCodes : bitOf .bitOne = some true ∧ bitOf .bitZero = some false := by decide

/-- The ends of every row of the partition. -/
theorem witness_ClassifyDefaultPartition :
    [(0, 5000), (5001, 4294967295), (0, 199), (2001, 4294967295), (200, 2000), (200, 449), (450, 650), (651, 1199),
      (1200, 1400), (1401, 2000)].all
      (fun p => decide (p.1 ≤ (BitVec.ofNat Config.tsWidth p.1).toNat) && decide ((BitVec.ofNat Config.tsWidth p.2).toNat ≤ p.2)) =
      true := by decide

theorem witness_DurationIsElapsedTime :
    4294966996 ≤ 4294967546 ∧ 4294967546 - 4294966996 < 2 ^ Config.tsWidth ∧
    (1000 : Timestamp).toNat ≤ (1550 : Timestamp).toNat ∧ monotone 1000 [⟨1550, .low⟩, ⟨1550, .high⟩] := ⟨by decide, by decide, by decide, by decide, by decide, trivial⟩

theorem witness_LockResult : (at1000 .unlocked 44 packetA).phase = .unlocked := by decide

/-- The first cell, the last cell and the full buffer. -/
theorem witness_AppendResult :
    (at1000 .locked 0 0).phase = .locked ∧ (at1000 .locked 0 0).bitIndex.toNat < Config.packetLength ∧
    (at1000 .locked 43 packetA).bitIndex.toNat < Config.packetLength ∧
    Config.packetLength ≤ (at1000 .locked 44 packetA).bitIndex.toNat ∧
    Config.packetLength ≤ (at1000 .locked 63 packetA).bitIndex.toNat := by decide

theorem witness_AbortResult : (at1000 .locked 0 0).phase = .locked := by decide

theorem witness_IdleRowsResult :
    (at1000 .unlocked 44 packetA).phase = .unlocked ∧ (at1000 .locked 5 0b11111).phase = .locked := by decide

theorem witness_FrameCompleteResult :
    (at1000 .locked 44 packetA).phase = .locked ∧ (at1000 .locked 44 packetA).bitIndex.toNat = Config.packetLength := by decide

theorem witness_TemperatureResult :
    (at1000 .locked 44 packetA).phase = .locked ∧ (at1000 .locked 44 packetA).bitIndex.toNat = Config.packetLength ∧
    (decodeFields (at1000 .locked 44 packetA).buf).measureKind = 0 := by decide

theorem witness_HumidityResult :
    (at1000 .locked 44 packetB).phase = .locked ∧ (at1000 .locked 44 packetB).bitIndex.toNat = Config.packetLength ∧
    (decodeFields (at1000 .locked 44 packetB).buf).measureKind = 14 := by decide

theorem witness_UnrecognizedResult :
    (7 : Nibble) ≠ 0 ∧ (7 : Nibble) ≠ 14 ∧ (at1000 .locked 44 packetD).phase = .locked ∧
    (at1000 .locked 44 packetD).bitIndex.toNat = Config.packetLength ∧
    (decodeFields (at1000 .locked 44 packetD).buf).measureKind = 7 := by decide

theorem witness_DecimalValue :
    recordA.tensDigit.toNat ≤ 9 ∧ recordA.onesDigit.toNat ≤ 9 ∧ recordA.tenthsDigit.toNat ≤ 9 := by decide

theorem witness_RowsRefusedInTheOtherPhase :
    (at1000 .unlocked 0 0).phase = .unlocked ∧ (at1000 .locked 0 0).phase = .locked := by decide

theorem witness_PartialFrameNeverDecoded :
    ¬((at1000 .locked 43 packetA).phase = .locked ∧ (at1000 .locked 43 packetA).bitIndex.toNat = Config.packetLength) ∧
    ¬((at1000 .unlocked 44 packetA).phase = .locked ∧ (at1000 .unlocked 44 packetA).bitIndex.toNat = Config.packetLength) ∧
    (1 : Nibble) ≠ 0 ∧ (1 : Nibble) ≠ 14 := by decide

/-- A humidity frame for TEMPERATURE, a temperature frame for HUMIDITY and for an UNRECOGNIZED row, and a frame of an unrecognized
kind for the row of another such kind. -/
theorem witness_InterpreterRowsRefuseOtherKinds :
    (at1000 .locked 44 packetB).bitIndex.toNat = Config.packetLength ∧
    (decodeFields packetB).measureKind ≠ 0 ∧ (decodeFields packetA).measureKind ≠ 14 ∧
    (1 : Nibble) ≠ 0 ∧ (1 : Nibble) ≠ 14 ∧ (decodeFields packetA).measureKind ≠ 1 ∧
    (15 : Nibble) ≠ 0 ∧ (15 : Nibble) ≠ 14 ∧ (decodeFields packetD).measureKind ≠ 15 ∧
    recognizedKind (decodeFields packetD).measureKind = false := by decide

/-- For the three frame statements (`BufferWrites`, `PhaseAndIndexWrites`, `RowsKeepTheStepsRegisters`): every row answers next
somewhere. -/
theorem witness_rows_complete :
    [Instr.lock, .idleUnlocked].all (fun i => (nextOf (exec i (at1000 .unlocked 44 packetA))).isSome) = true ∧
    [Instr.appendOne, .appendZero, .abort, .idleLocked].all (fun i => (nextOf (exec i (at1000 .locked 5 0))).isSome) = true ∧
    [Instr.frameComplete, .reset, .temperature].all (fun i => (nextOf (exec i (at1000 .locked 44 packetA))).isSome) = true ∧
    (nextOf (exec .humidity (at1000 .locked 44 packetB))).isSome = true ∧
    (nextOf (exec (.unrecognized 7) (at1000 .locked 44 packetD))).isSome = true := by decide

theorem witness_InterpretCases :
    recordA.measureKind = 0 ∧ recordB.measureKind = 14 ∧ recordD.measureKind ≠ 0 ∧ recordD.measureKind ≠ 14 ∧
    ((nextOf (stepWith Config.default (withEdge (at1000 .locked 44 packetA) 1000 .high))).map
      fun t => decide (OutEvent.reading ⟨.fahrenheit, -1246⟩ ∈ t.out)) = some true := by decide

/-- The two ends of the range. -/
theorem witness_ReadingsFitTheirPort :
    interpret ⟨0, 0, 0, 0, 0, 0, 0, 0, 0⟩ = some ⟨.fahrenheit, -5800⟩ ∧
    interpret ⟨0, 0, 0, 0, 15, 15, 15, 0, 0⟩ = some ⟨.fahrenheit, 24170⟩ ∧
    interpret ⟨0, 14, 0, 0, 15, 15, 15, 0, 0⟩ = some ⟨.percent, 16650⟩ := by decide

/-- Packet A with its parity, checksum and redundancy bits turned. -/
theorem witness_UncheckedFieldsDoNotMatter :
    let buf := setCell (setCell (setCell packetA 19 false) 43 false) 32 true
    buf ≠ packetA ∧ (at1000 .locked 44 packetA).phase = .locked ∧
    ∀ i < 44, (8 ≤ i ∧ i < 12) ∨ (20 ≤ i ∧ i < 32) → cell buf i = cell packetA i := by decide

/-- The four clauses: no frame complete, a frame complete, the reset input, no input; and the three kinds. -/
theorem witness_StepRunsDecodedRow :
    decode .stateCheck (stateCheckWord (at1000 .locked 43 0)) = .error (.frameNotComplete 0b1101011) ∧
    decode .phaseSymbol (selectorWord .locked (classify Config.default (duration 1550 1000) .low .locked)) = .ok .appendOne ∧
    decode .stateCheck (stateCheckWord (at1000 .locked 44 packetA)) = .ok .frameComplete ∧
    (nextOf (exec .frameComplete (at1000 .locked 44 packetA))).map (·.phase) = some .unlocked ∧
    decode .phaseSymbol (selectorWord .unlocked (classify Config.default (duration 7000 1000) .low .unlocked)) = .ok .lock ∧
    decode .reset 1 = .ok .reset ∧ (at1000 .locked 44 packetA).inputs = [] ∧
    decode .measureKind (kindWord (decodeFields packetA).measureKind) = .ok .temperature ∧
    decode .measureKind (kindWord (decodeFields packetD).measureKind) = .ok (.unrecognized 7) := by decide

theorem witness_ConfigurationWithoutFieldMapRefused :
    { Config.default with packetLength := 43 }.packetLength ≠ 44 ∧
    { Config.default with packetLength := 45 }.packetLength ≠ 44 := by decide

/-- The invariant at both ends of the index, and steps from there. -/
theorem witness_StepKeepsBufferInvariant :
    Inv (at1000 .locked 0 0) ∧ Inv (at1000 .locked 44 packetA) ∧ Inv (at1000 .unlocked 30 0x3FFFFFFF) ∧
    (nextOf (step (withEdge (at1000 .locked 0 0) 550 .low))).isSome = true := by decide

/-- For `EveryEdgeStoresItsTime`, `EdgeStepOutput` and `BufferReadOnlyByTheFrameCheck`: an edge waiting, a step, with a frame
complete and without one. -/
theorem witness_edge_steps :
    Config.default.wf = true ∧
    (withEdge (at1000 .locked 44 packetA) 1000 .high).inputs = .edge 0x1000007D0 :: [] ∧
    (nextOf (stepWith Config.default (withEdge (at1000 .locked 44 packetA) 1000 .high))).map
      (fun t => decide (OutEvent.frame recordA ∈ t.out)) = some true ∧
    (nextOf (stepWith Config.default (withEdge (at1000 .locked 43 packetA) 1000 .high))).map (·.out) = some [] := by decide

/-- One microsecond beyond either bound, and the bounds themselves. -/
theorem witness_TimingAnomalyAborts :
    (at1000 .locked 30 0).bitIndex.toNat ≠ Config.packetLength ∧
    Config.default.highFailUs < (duration 3001 1000).toNat ∧ (duration 1199 1000).toNat < Config.default.lowFailUs ∧
    ¬(Config.default.highFailUs < (duration 3000 1000).toNat ∨ (duration 3000 1000).toNat < Config.default.lowFailUs) ∧
    ¬(Config.default.highFailUs < (duration 1200 1000).toNat ∨ (duration 1200 1000).toNat < Config.default.lowFailUs) ∧
    inBand Config.default.lowPulseUs Config.default.toleranceUs (duration 1651 1000) = false ∧
    inBand Config.default.highPulseUs Config.default.toleranceUs (duration 1651 1000) = false := by
  decide

theorem witness_UnrecognizedKindGivesFrameOnly :
    (withEdge (at1000 .locked 44 packetD) 0 .low).inputs = [.edge 1000] ∧
    (decodeFields packetD).measureKind ≠ 0 ∧ (decodeFields packetD).measureKind ≠ 14 := by decide

theorem witness_NoTimeout :
    Config.default.wf = true ∧ (at1000 .locked 44 packetA).inputs = [] := by decide

theorem witness_IgnoredChangesOnlyTheTime :
    classify Config.default (duration 2000 1000) .high .locked = .ignored ∧
    classify Config.default (duration 6000 1000) .high .unlocked = .ignored ∧
    ¬((at1000 .locked 43 0).phase = .locked ∧ (at1000 .locked 43 0).bitIndex.toNat = Config.packetLength) := by decide

/-- Just above the lock threshold, with and without a frame complete. -/
theorem witness_LockGapWhileLocked :
    Config.default.highFailUs ≤ Config.default.lockThresholdUs ∧
    Config.default.lockThresholdUs < (duration 6001 1000).toNat ∧
    (withEdge (at1000 .locked 43 0) 5001 .high).inputs = [.edge 0x100001771] ∧
    (at1000 .locked 44 packetA).bitIndex.toNat = Config.packetLength := by decide

/-- Two states that differ only in dead bits, and a step from each. -/
theorem witness_DeadBitsAreUnobservable :
    sameButDeadBits (withEdge (at1000 .unlocked 30 0x3FFFFFFF) 6000 .low) (withEdge (at1000 .unlocked 0 0) 6000 .low) ∧
    (nextOf (step (withEdge (at1000 .unlocked 30 0x3FFFFFFF) 6000 .low))).isSome = true := by decide

theorem witness_ResetErasesHistory :
    ((at1000 .locked 44 packetA).setInputs [.reset, .edge 20000]).inputs = .reset :: [.edge 20000] ∧
    (State.reset.setInputs [.reset, .edge 20000]).inputs = .reset :: [.edge 20000] := by decide

theorem witness_AtMostOneFramePerLock :
    1 ≤ (withEdge (at1000 .locked 44 packetA) 9000 .high).inputs.length := by decide

/-- A state just locked and three edges: a one, a gap, a zero. -/
theorem witness_LockCycleRecordsBits :
    let es : List EdgeEvent := [⟨1550, .low⟩, ⟨2550, .high⟩, ⟨3850, .low⟩]
    Symbol.abort ∉ lockedSymbols Config.default 1000 es ∧
    (bitsOf (lockedSymbols Config.default 1000 es).dropLast).length < Config.packetLength ∧
    bitsOf (lockedSymbols Config.default 1000 es) = [true, false] := by decide

/-- 44 pulses at the ends of their bands and gaps at the fail bounds. -/
theorem witness_ToleratedPacketIsDelivered :
    (List.replicate 22 (Pulse.mk true 450 200) ++ List.replicate 22 (Pulse.mk false 1400 2000)).length = Config.packetLength ∧
    (∀ p ∈ List.replicate 22 (Pulse.mk true 450 200) ++ List.replicate 22 (Pulse.mk false 1400 2000),
      p.tolerated Config.default) ∧
    Config.default.lockThresholdUs < 5001 ∧ 5001 < 2 ^ Config.tsWidth := by decide

/-- Intervals at both ends of the first clause's range, the second across a wrap; and a run of a one, a gap and a zero, within
which the shortest interval is LOW_FAIL_US itself. -/
theorem witness_BudgetBelowLowFailSuffices :
    let es : List EdgeEvent := [⟨1550, .low⟩, ⟨1750, .high⟩, ⟨3050, .low⟩]
    let s := (at1000 .locked 0 0).setInputs (edges es)
    199 < Config.default.lowFailUs ∧
    (∀ g ∈ [(200, Level.low), (4294967295, Level.high)], Config.default.lowFailUs ≤ g.1 ∧ g.1 < 2 ^ Config.tsWidth) ∧
    s.phase = .locked ∧ s.inputs = edges es ++ [] ∧
    (∀ t ∈ runSteps Config.default 3 s, t.phase = .locked) ∧ outputs (runSteps Config.default 3 s) = [] ∧
    (runSteps Config.default 3 s).length = 3 := by decide

end Sys2Proof.Tests
end

/-! Proofs of the family 20_memory.md: who reads the cells of the buffer (R52). -/

namespace Sys2Proof.Machine

open Sys2Proof.Safety

/-- The only frame among a record's events is the record itself (R27). -/
theorem frame_mem_frameEvents (r r' : FieldRecord) : OutEvent.frame r ∈ frameEvents r' ↔ r = r' := by
  unfold frameEvents
  cases interpret r' <;> simp

theorem frameReady_eq_false_iff (s : State) :
    frameReady s = false ↔ ¬(s.phase = .locked ∧ s.bitIndex.toNat = Config.packetLength) := by
  rw [← frameReady_iff, Bool.not_eq_true]

/-- Whether an append has room depends on the index alone, so the old cells show in the new cells only (R125, R126). -/
theorem appendBit_setBuf (b : Bool) (s : State) (buf : BitBuffer) :
    ∃ buf', appendBit b (s.setBuf buf) = (appendBit b s).setBuf buf' := by
  rcases Nat.lt_or_ge s.bitIndex.toNat Config.packetLength with hroom | hfull
  · rw [appendBit_of_lt b s hroom, appendBit_of_lt b (s.setBuf buf) hroom]
    exact ⟨setCell buf s.bitIndex.toNat b, rfl⟩
  · rw [appendBit_of_ge b s hfull, appendBit_of_ge b (s.setBuf buf) hfull]
    exact ⟨buf, rfl⟩

/-- No transition lets the cells show outside the cells (R74). -/
theorem transitioned_setBuf (sym : Symbol) (s : State) (buf : BitBuffer) :
    ∃ buf', transitioned sym (s.setBuf buf) = (transitioned sym s).setBuf buf' := by
  unfold transitioned
  rw [State.setBuf_phase]
  split
  · exact ⟨clearedBuffer, rfl⟩
  · exact appendBit_setBuf true s buf
  · exact appendBit_setBuf false s buf
  · exact ⟨buf, rfl⟩
  · exact ⟨buf, rfl⟩

/-- With no frame complete, an edge step lets the cells show in the cells only: the symbol does not depend on them (R52). -/
theorem afterEdge_setBuf (cfg : Cfg) (e : EdgeEvent) (s : State) (buf : BitBuffer) (h : frameReady s = false) :
    ∃ buf', afterEdge cfg e (s.setBuf buf) = (afterEdge cfg e s).setBuf buf' := by
  have hsym : stepSymbol cfg e (s.setBuf buf) = stepSymbol cfg e s := rfl
  obtain ⟨buf', hbuf'⟩ := transitioned_setBuf (stepSymbol cfg e s) ((s.setOut []).setPrevTs e.ts) buf
  refine ⟨buf', ?_⟩
  rw [afterEdge_not_ready cfg e s h, afterEdge_not_ready cfg e (s.setBuf buf) h, hsym]
  exact congrArg (·.setLastSym (stepSymbol cfg e s)) hbuf'

/-- A frame put out by an edge step comes from a complete buffer, all of whose cells are decoded (R52, R121). -/
theorem frame_mem_afterEdge_out (cfg : Cfg) (e : EdgeEvent) (s : State) (r : FieldRecord)
    (h : .frame r ∈ (afterEdge cfg e s).out) : frameReady s = true ∧ r = decodeFields s.buf := by
  rw [afterEdge_out] at h
  split at h
  next hready => exact ⟨hready, (frame_mem_frameEvents _ _).mp h⟩
  next => simp at h

/-- With no frame complete, a step from another buffer differs in the next state's buffer only (R52). -/
theorem stepWith_setBuf (cfg : Cfg) (s t : State) (buf : BitBuffer) (hready : frameReady s = false)
    (h : stepWith cfg s = .next t) : ∃ buf', stepWith cfg (s.setBuf buf) = .next (t.setBuf buf') := by
  obtain ⟨hc, ⟨hi, rfl⟩ | ⟨rest, hi, rfl⟩ | ⟨w, rest, hi, rfl⟩⟩ := stepWith_cases cfg s t h
  · exact ⟨buf, stepWith_idle cfg (s.setBuf buf) hc hi⟩
  · exact ⟨0, stepWith_reset cfg (s.setBuf buf) rest hc hi⟩
  · obtain ⟨buf', hbuf'⟩ := afterEdge_setBuf cfg (decodeEvent w) (s.setInputs rest) buf hready
    exact ⟨buf', (stepWith_edge cfg (s.setBuf buf) w rest hc hi).trans (congrArg _ hbuf')⟩

end Sys2Proof.Machine

namespace Sys2Proof.Proofs

open Sys2Proof.Machine

/-- Settles O45, from what an edge step puts out, and from a case split over the inputs and transitions of a step with no frame
complete. -/
theorem bufferReadOnlyByTheFrameCheck : Obligations.BufferReadOnlyByTheFrameCheck := by
  unfold Obligations.BufferReadOnlyByTheFrameCheck
  constructor
  · intro cfg s t r w rest hi hstep hframe
    obtain ⟨hc, -⟩ := stepWith_cases cfg s t hstep
    rw [stepWith_edge cfg s w rest hc hi] at hstep
    cases hstep
    obtain ⟨hready, hr⟩ := frame_mem_afterEdge_out _ _ _ _ hframe
    obtain ⟨hphase, hindex⟩ := (frameReady_iff _).mp hready
    exact ⟨hphase, hindex, hr⟩
  · intro cfg s t buf hready hstep
    exact stepWith_setBuf cfg s t buf ((frameReady_eq_false_iff s).mpr hready) hstep

end Sys2Proof.Proofs

/-! Proofs of the family 42_decoder.md: the field primitive (R150), the field map (R151 to R159) and what a frame's reading
depends on (R162). -/

namespace Sys2Proof.Machine

open Sys2Proof.Safety

/-- `Extract` weighs the cell `i` places after the first with `2^(width-1-i)` (R150). -/
theorem extract_eq_sum (buf : BitBuffer) (start width : Nat) :
    extract buf start width = ∑ i ∈ Finset.range width, (cell buf (start + i)).toNat * 2 ^ (width - 1 - i) := by
  induction width with
  | zero => rfl
  | succ w ih =>
    have hshift : ∀ i ∈ Finset.range w, 2 * ((cell buf (start + i)).toNat * 2 ^ (w - 1 - i)) =
        (cell buf (start + i)).toNat * 2 ^ (w + 1 - 1 - i) := by
      intro i hi
      have hexp : w + 1 - 1 - i = w - 1 - i + 1 := by
        have := Finset.mem_range.mp hi
        omega
      rw [hexp, pow_succ]
      ring
    rw [extract_succ, ih, Finset.mul_sum, Finset.sum_congr rfl hshift, Finset.sum_range_succ]
    simp

/-- A field of one bit is its cell (R150, R154). -/
theorem extract_one (buf : BitBuffer) (start : Nat) : extract buf start 1 = (cell buf start).toNat := by
  simp [extract_succ]

/-- A field whose cells are all 1 is the largest of its width (R150). -/
theorem extract_of_ones (buf : BitBuffer) (start width : Nat) (h : ∀ i < width, cell buf (start + i) = true) :
    extract buf start width = 2 ^ width - 1 := by
  induction width with
  | zero => rfl
  | succ w ih =>
    have hpos : 0 < 2 ^ w := Nat.two_pow_pos w
    rw [extract_succ, ih fun i hi => h i (by omega), h w (by omega), pow_succ, Bool.toNat_true]
    omega

/-- The reading of a record depends on its kind and its three digits only (R177, R162). -/
theorem interpret_congr (r r' : FieldRecord) (hkind : r.measureKind = r'.measureKind) (htens : r.tensDigit = r'.tensDigit)
    (hones : r.onesDigit = r'.onesDigit) (htenths : r.tenthsDigit = r'.tenthsDigit) : interpret r = interpret r' := by
  have hdv : dv10 r = dv10 r' := by simp only [dv10, htens, hones, htenths]
  simp only [interpret, temperatureReading, humidityReading, hkind, hdv]

/-- Buffers with equal cells at the kind and the three digits have the same reading (R162). -/
theorem interpret_decodeFields_congr (b c : BitBuffer)
    (h : ∀ i, (8 ≤ i ∧ i < 12) ∨ (20 ≤ i ∧ i < 32) → cell b i = cell c i) :
    interpret (decodeFields b) = interpret (decodeFields c) := by
  have hfield : ∀ start, start = 8 ∨ start = 20 ∨ start = 24 ∨ start = 28 →
      BitVec.ofNat 4 (extract b start 4) = BitVec.ofNat 4 (extract c start 4) := fun start hstart =>
    congrArg (BitVec.ofNat 4) (extract_congr b c start 4 fun i _ _ => h i (by omega))
  exact interpret_congr _ _ (hfield 8 (by simp)) (hfield 20 (by simp)) (hfield 24 (by simp)) (hfield 28 (by simp))

/-- A completed frame's events: the frame itself, then the reading its record has, if any (R27). -/
theorem frameEvents_eq_cons (r : FieldRecord) :
    frameEvents r = .frame r :: (interpret r).toList.map OutEvent.reading := by
  unfold frameEvents
  cases interpret r <;> rfl

end Sys2Proof.Machine

namespace Sys2Proof.Proofs

open Sys2Proof.Machine

/-- Settles O7, by induction on the width. -/
theorem extractReadsMsbFirst : Obligations.ExtractReadsMsbFirst := by
  unfold Obligations.ExtractReadsMsbFirst
  intro buf start width
  exact ⟨extract_eq_sum buf start width, extract_lt buf start width, extract_one buf start,
    extract_of_ones buf start width⟩

/-- Settles O32: FRAME_COMPLETE puts out the frame and the reading that `interpret` gives, and `interpret` reads none of the
unchecked fields. -/
theorem uncheckedFieldsDoNotMatter : Obligations.UncheckedFieldsDoNotMatter := by
  unfold Obligations.UncheckedFieldsDoNotMatter
  intro s buf hphase hindex hcells
  have hready : frameReady s = true := (frameReady_iff s).mpr ⟨hphase, hindex⟩
  have hready' : frameReady (s.setBuf buf) = true := hready
  have hreading : interpret (decodeFields buf) = interpret (decodeFields s.buf) :=
    interpret_decodeFields_congr buf s.buf hcells
  refine ⟨_, _, (interpret (decodeFields s.buf)).toList.map OutEvent.reading,
    execFrameComplete_ready s hready, ?_, execFrameComplete_ready (s.setBuf buf) hready', ?_⟩
  · rw [State.setPhase_out, State.setOut_out, frameEvents_eq_cons]
  · rw [State.setPhase_out, State.setOut_out, State.setBuf_out, State.setBuf_buf, frameEvents_eq_cons, hreading]

/-- Settles O8: every field is the number its extract gives, as none of them is cut off. -/
theorem fieldsAtTheirPositions : Obligations.FieldsAtTheirPositions := by
  unfold Obligations.FieldsAtTheirPositions
  intro buf
  have hfield := ofNat_extract_toNat buf
  exact ⟨hfield 0 8, hfield 8 4, hfield 12 7, ⟨hfield 19 1, extract_one buf 19⟩, hfield 20 4, hfield 24 4, hfield 28 4,
    hfield 40 4⟩

end Sys2Proof.Proofs

/-! Proofs of the family 43_interpreter.md: dv10 (R170), TEMPERATURE's value (R171) and the cases of `Interpret` (R177). -/

namespace Sys2Proof.Machine

open Sys2Proof.Safety

/-- The decimal value counts its digits unsigned, and so is never negative (R170, R176). -/
theorem dv10_nonneg (r : FieldRecord) : 0 ≤ dv10 r := by
  unfold dv10
  omega

/-- With each digit at most `d` the decimal value is at most `d` in all three places (R170). -/
theorem dv10_le_of_digits_le (r : FieldRecord) (d : Nat) (htens : r.tensDigit.toNat ≤ d) (hones : r.onesDigit.toNat ≤ d)
    (htenths : r.tenthsDigit.toNat ≤ d) : dv10 r ≤ 111 * d := by
  unfold dv10
  omega

/-- A digit is a nibble, and so at most 15 (R170, R176). -/
theorem nibble_toNat_le (n : Nibble) : n.toNat ≤ 15 := Nat.le_of_lt_succ n.isLt

/-- `dv10` is ten times the source's decimal value, with no rounding (R170). -/
theorem dv10_eq_ten_mul_decimalValue (r : FieldRecord) :
    (dv10 r : Rat) =
      10 * ((r.tensDigit.toNat : Rat) * 10 + r.onesDigit.toNat + (r.tenthsDigit.toNat : Rat) / 10) := by
  unfold dv10
  push_cast
  ring

/-- The two integer steps of R171 in one formula. -/
theorem fahrenheit100_eq (dv : Int) : fahrenheit100 dv = 18 * dv - 5800 := by
  unfold fahrenheit100
  ring

/-- TEMPERATURE's reading by the one formula of R171. -/
theorem temperatureReading_eq (r : FieldRecord) : temperatureReading r = ⟨.fahrenheit, 18 * dv10 r - 5800⟩ := by
  rw [temperatureReading, fahrenheit100_eq]

/-- TEMPERATURE on a completed frame of its kind adds its reading to the output (R171). -/
theorem execTemperature_completed (s : State) (hready : frameReady s = true)
    (hkind : (decodeFields s.buf).measureKind = 0) :
    execTemperature s = .next (emit (.reading (temperatureReading (decodeFields s.buf))) s) :=
  (onCompletedFrame_eq_next _ _ _ _).mpr ⟨hready, hkind, rfl⟩

/-- TEMPERATURE's hundredths are those of the Fahrenheit value, exactly (R171). -/
theorem fahrenheit_hundredths_exact (dv : Int) :
    ((18 * dv - 5800 : Int) : Rat) / 100 = ((dv : Rat) / 10 - 50) * 9 / 5 + 32 := by
  push_cast
  ring

theorem interpret_of_kind_zero (r : FieldRecord) (h : r.measureKind = 0) : interpret r = some (temperatureReading r) := by
  rw [interpret, if_pos h]

theorem interpret_of_kind_fourteen (r : FieldRecord) (h : r.measureKind = 14) : interpret r = some (humidityReading r) := by
  have h0 : r.measureKind ≠ 0 := by
    rw [h]
    decide
  rw [interpret, if_neg h0, if_pos h]

theorem interpret_of_other_kind (r : FieldRecord) (h0 : r.measureKind ≠ 0) (h14 : r.measureKind ≠ 14) :
    interpret r = none := by
  rw [interpret, if_neg h0, if_neg h14]

/-- A reading among a record's events is the record's own (R177). -/
theorem reading_mem_frameEvents (r : FieldRecord) (v : Reading) :
    OutEvent.reading v ∈ frameEvents r ↔ interpret r = some v := by
  simp [frameEvents_eq_cons]

/-- A record that has a reading puts out its frame and then that reading (R27). -/
theorem frameEvents_of_interpret_eq_some (r : FieldRecord) (v : Reading) (h : interpret r = some v) :
    frameEvents r = [.frame r, .reading v] := by
  rw [frameEvents_eq_cons, h]
  rfl

/-- The output of any step is empty or the events of one record: only the frame-complete check puts anything out (R27). -/
theorem stepWith_out (cfg : Cfg) (s t : State) (h : stepWith cfg s = .next t) :
    t.out = [] ∨ ∃ r, t.out = frameEvents r := by
  obtain ⟨-, ⟨-, rfl⟩ | ⟨rest, -, rfl⟩ | ⟨w, rest, -, rfl⟩⟩ := stepWith_cases cfg s t h
  · exact .inl rfl
  · exact .inl rfl
  · rw [afterEdge_out]
    split
    · exact .inr ⟨_, rfl⟩
    · exact .inl rfl

/-- A step that puts out a reading puts out its frame before it and nothing else (R177). -/
theorem stepWith_out_of_reading_mem (cfg : Cfg) (s t : State) (v : Reading) (hstep : stepWith cfg s = .next t)
    (hmem : .reading v ∈ t.out) : ∃ r, t.out = [.frame r, .reading v] ∧ interpret r = some v := by
  obtain hout | ⟨r, hout⟩ := stepWith_out cfg s t hstep <;> rw [hout] at hmem
  · exact absurd hmem List.not_mem_nil
  · have hreading : interpret r = some v := (reading_mem_frameEvents r v).mp hmem
    exact ⟨r, hout.trans (frameEvents_of_interpret_eq_some r v hreading), hreading⟩

end Sys2Proof.Machine

namespace Sys2Proof.Proofs

open Sys2Proof.Machine

/-- Settles O30: the three kinds one by one; a step's output is empty or a record's events, so a reading among them comes with
its frame. -/
theorem interpretCases : Obligations.InterpretCases := by
  unfold Obligations.InterpretCases
  refine ⟨fun r => ⟨fun h0 => ?_, fun h14 => ?_, interpret_of_other_kind r⟩, stepWith_out_of_reading_mem⟩
  · rw [interpret_of_kind_zero r h0, temperatureReading_eq]
  · exact interpret_of_kind_fourteen r h14

/-- Settles O20, from TEMPERATURE's effect on a completed frame and the arithmetic of R171. -/
theorem temperatureResult : Obligations.TemperatureResult := by
  unfold Obligations.TemperatureResult
  intro s hphase hindex hkind dv
  have hexec := execTemperature_completed s ((frameReady_iff s).mpr ⟨hphase, hindex⟩) hkind
  rw [temperatureReading_eq] at hexec
  refine ⟨hexec, fahrenheit_hundredths_exact dv, ?_, ?_⟩ <;> omega

/-- Settles O24: the range is that of three digits of at most 15 each, or of at most 9 each. -/
theorem decimalValue : Obligations.DecimalValue := by
  unfold Obligations.DecimalValue
  intro r
  exact ⟨rfl, dv10_nonneg r,
    dv10_le_of_digits_le r 15 (nibble_toNat_le _) (nibble_toNat_le _) (nibble_toNat_le _),
    dv10_le_of_digits_le r 9, dv10_eq_ten_mul_decimalValue r⟩

end Sys2Proof.Proofs

/-! Proofs of the family 60_exceptions.md: the edge after a complete frame of an unrecognized kind (R202). -/

namespace Sys2Proof.Machine

open Sys2Proof.Safety

/-- A record that has no reading puts out its frame only (R27, R202). -/
theorem frameEvents_of_interpret_eq_none (r : FieldRecord) (h : interpret r = none) : frameEvents r = [.frame r] := by
  rw [frameEvents_eq_cons, h]
  rfl

/-- An edge step with a frame pending puts out that frame's events, whatever the edge's own symbol is (R27, R121). -/
theorem afterEdge_out_of_ready (cfg : Cfg) (e : EdgeEvent) (s : State) (h : frameReady s = true) :
    (afterEdge cfg e s).out = frameEvents (decodeFields s.buf) := by
  rw [afterEdge_out, if_pos h]

end Sys2Proof.Machine

namespace Sys2Proof.Proofs

open Sys2Proof.Machine

/-- Settles O41: the edge step puts out the pending frame's events, and a record of another kind has no reading. -/
theorem unrecognizedKindGivesFrameOnly : Obligations.UnrecognizedKindGivesFrameOnly := by
  unfold Obligations.UnrecognizedKindGivesFrameOnly
  intro cfg s w rest hcfg hinputs hphase hindex h0 h14
  have hready : frameReady (s.setInputs rest) = true := (frameReady_iff _).mpr ⟨hphase, hindex⟩
  have hreading : interpret (decodeFields s.buf) = none := interpret_of_other_kind _ h0 h14
  exact ⟨_, stepWith_edge cfg s w rest hcfg hinputs,
    (afterEdge_out_of_ready cfg _ _ hready).trans (frameEvents_of_interpret_eq_none _ hreading)⟩

end Sys2Proof.Proofs

/-! Proofs about encodings: the packet and its record, and the frame word (R76, R79, R150 to R160). -/

namespace Sys2Proof.Machine

/-- Two fields that lie next to each other, written one after the other, are one field of their joint width (R150). -/
theorem ofNat_extract_append (buf : BitBuffer) (start v w : Nat) :
    BitVec.ofNat v (extract buf start v) ++ BitVec.ofNat w (extract buf (start + v) w) =
      BitVec.ofNat (v + w) (extract buf start (v + w)) := by
  refine BitVec.eq_of_getLsbD_eq fun j hj => ?_
  rw [BitVec.getLsbD_append, getLsbD_ofNat_extract buf start (v + w) j hj]
  split
  next hlow =>
    rw [getLsbD_ofNat_extract buf (start + v) w j hlow]
    congr 1
    omega
  next hhigh =>
    rw [getLsbD_ofNat_extract buf start v (j - w) (by omega)]
    congr 1
    omega

/-- The frame word of a buffer's record is the whole buffer read as one field (R79). -/
theorem frameWord_decodeFields (buf : BitBuffer) :
    frameWord (decodeFields buf) = BitVec.ofNat Config.packetLength (extract buf 0 Config.packetLength) := by
  have hjoin := ofNat_extract_append buf 0
  simp only [Nat.zero_add] at hjoin
  simp only [frameWord, decodeFields]
  rw [hjoin 8 4, hjoin (8 + 4) 7, hjoin (8 + 4 + 7) 1, hjoin (8 + 4 + 7 + 1) 4, hjoin (8 + 4 + 7 + 1 + 4) 4,
    hjoin (8 + 4 + 7 + 1 + 4 + 4) 4, hjoin (8 + 4 + 7 + 1 + 4 + 4 + 4) 8, hjoin (8 + 4 + 7 + 1 + 4 + 4 + 4 + 8) 4]

/-- Every field of a record is the slice of its frame word that the table of R79 gives it. -/
theorem frameWord_slices (r : FieldRecord) :
    (frameWord r).extractLsb' 36 8 = r.initByte ∧ (frameWord r).extractLsb' 32 4 = r.measureKind ∧
    (frameWord r).extractLsb' 25 7 = r.deviceId ∧ (frameWord r).extractLsb' 24 1 = r.parityBit ∧
    (frameWord r).extractLsb' 20 4 = r.tensDigit ∧ (frameWord r).extractLsb' 16 4 = r.onesDigit ∧
    (frameWord r).extractLsb' 12 4 = r.tenthsDigit ∧ (frameWord r).extractLsb' 4 8 = r.redundancy ∧
    (frameWord r).extractLsb' 0 4 = r.checksumNibble := by
  unfold frameWord
  refine ⟨?_, ?_, ?_, ?_, ?_, ?_, ?_, ?_, ?_⟩ <;>
    change BitVec.extractLsb' (n := 8 + 4 + 7 + 1 + 4 + 4 + 4 + 8 + 4) _ _ _ = _ <;>
    simp (disch := decide) only [BitVec.extractLsb'_append_eq_of_le, BitVec.extractLsb'_append_eq_of_add_le,
      Nat.reduceSub, BitVec.extractLsb'_eq_self]

/-- A packet's cell is its frame word's bit, counted from the top (R79). -/
theorem cell_encodeFields (r : FieldRecord) (i : Nat) (hi : i < Config.packetLength) :
    cell (encodeFields r) i = (frameWord r).getLsbD (Config.packetLength - 1 - i) := by
  rw [encodeFields, cell_cellsOfWord _ _ _ le_rfl, if_pos hi]

/-- A field read from a packet is the slice of the frame word it was written from (R79, R150). -/
theorem ofNat_extract_encodeFields (r : FieldRecord) (start width : Nat) (h : start + width ≤ Config.packetLength) :
    BitVec.ofNat width (extract (encodeFields r) start width) =
      (frameWord r).extractLsb' (Config.packetLength - (start + width)) width := by
  refine BitVec.eq_of_getLsbD_eq fun j hj => ?_
  rw [getLsbD_ofNat_extract _ _ _ _ hj, cell_encodeFields _ _ (by omega), BitVec.getLsbD_extractLsb', decide_eq_true hj,
    Bool.true_and]
  congr 1
  omega

/-- A record's packet decodes to that record (R160). -/
theorem decodeFields_encodeFields (r : FieldRecord) : decodeFields (encodeFields r) = r := by
  have hfield := ofNat_extract_encodeFields r
  obtain ⟨hinit, hkind, hid, hparity, htens, hones, htenths, hred, hsum⟩ := frameWord_slices r
  unfold decodeFields
  rw [(hfield 0 8 (by decide)).trans hinit, (hfield 8 4 (by decide)).trans hkind, (hfield 12 7 (by decide)).trans hid,
    (hfield 19 1 (by decide)).trans hparity, (hfield 20 4 (by decide)).trans htens,
    (hfield 24 4 (by decide)).trans hones, (hfield 28 4 (by decide)).trans htenths,
    (hfield 32 8 (by decide)).trans hred, (hfield 40 4 (by decide)).trans hsum]

/-- A buffer is the packet of the record it decodes to (R160). -/
theorem encodeFields_decodeFields (buf : BitBuffer) : encodeFields (decodeFields buf) = buf := by
  refine buffer_ext _ _ fun i hi => ?_
  rw [cell_encodeFields _ _ hi, frameWord_decodeFields, getLsbD_ofNat_extract _ _ _ _ (by omega)]
  congr 1
  omega

end Sys2Proof.Machine

namespace Sys2Proof.Proofs

open Sys2Proof.Machine

/-- Settles O5: the frame word joins the fields without a gap, so each cell of a packet is one bit of one field. -/
theorem packetEncodeDecode : Obligations.PacketEncodeDecode :=
  ⟨decodeFields_encodeFields, encodeFields_decodeFields⟩

/-- Settles O6: the frame word is the whole buffer read as one field of 44 bits. -/
theorem frameWordLayout : Obligations.FrameWordLayout := by
  unfold Obligations.FrameWordLayout
  intro buf r fr
  refine ⟨?_, frameWord_slices r⟩
  have hsum := extract_eq_sum buf 0 Config.packetLength
  simp only [Nat.zero_add] at hsum
  rw [← hsum, ← ofNat_extract_toNat buf 0 Config.packetLength, ← frameWord_decodeFields]

end Sys2Proof.Proofs

/-! Proofs about the buffer invariant (R33) and what an abort or a frame leaves behind (R53). -/

namespace Sys2Proof.Machine

open Sys2Proof.Safety

/-- The invariant speaks of the phase, the index and the cells only (R33). -/
theorem inv_congr (s t : State) (hphase : t.phase = s.phase) (hindex : t.bitIndex = s.bitIndex) (hbuf : t.buf = s.buf) :
    Inv t ↔ Inv s := by
  unfold Safety.Inv withinBuffer clearAbove
  rw [hphase, hindex, hbuf]

/-- While UNLOCKED the invariant asks for the bound on the index only (R33). -/
theorem inv_of_unlocked (s : State) (hphase : s.phase = .unlocked) (hindex : withinBuffer s) : Inv s :=
  ⟨hindex, fun hlocked => by simp [hphase] at hlocked⟩

/-- With the index at 0 and every cell 0 the invariant holds in either phase (R33, R134). -/
theorem inv_of_cleared (s : State) (hindex : s.bitIndex = 0) (hbuf : s.buf = clearedBuffer) : Inv s := by
  refine ⟨?_, fun _ i _ _ => ?_⟩
  · simp [withinBuffer, hindex]
  · rw [hbuf, cell_clearedBuffer]

/-- An append writes below the new index, so the cells from there on stay 0 (R51). -/
theorem inv_appendBit (b : Bool) (s : State) (h : Inv s) : Inv (appendBit b s) := by
  rcases Nat.lt_or_ge s.bitIndex.toNat Config.packetLength with hroom | hfull
  · obtain ⟨-, habove⟩ := h
    rw [appendBit_of_lt b s hroom]
    have hnext : (s.bitIndex + 1).toNat = s.bitIndex.toNat + 1 := succ_toNat s.bitIndex hroom
    refine ⟨?_, fun hlocked i hi hle => ?_⟩
    · rw [withinBuffer, State.setBitIndex_bitIndex, hnext]
      exact hroom
    · rw [State.setBitIndex_bitIndex, hnext] at hle
      rw [State.setBitIndex_buf, State.setBuf_buf, cell_setCell_ne _ _ _ _ hroom (by omega)]
      exact habove hlocked i hi (by omega)
  · rwa [appendBit_of_ge b s hfull]

/-- Every transition keeps the invariant (R33, R74). -/
theorem inv_transitioned (sym : Symbol) (s : State) (h : Inv s) : Inv (transitioned sym s) := by
  unfold transitioned
  split
  · exact inv_of_cleared _ rfl rfl
  · exact inv_appendBit true s h
  · exact inv_appendBit false s h
  · exact inv_of_unlocked _ rfl h.1
  · exact h

/-- The frame-complete check keeps the invariant (R33, R121). -/
theorem inv_afterCheck (s : State) (h : Inv s) : Inv (afterCheck s) := by
  unfold afterCheck
  split
  · exact inv_of_unlocked _ rfl h.1
  · exact h

/-- Every step keeps the invariant (R33). -/
theorem inv_of_stepWith (cfg : Cfg) (s t : State) (h : Inv s) (hstep : stepWith cfg s = .next t) : Inv t := by
  obtain ⟨-, ⟨-, rfl⟩ | ⟨rest, -, rfl⟩ | ⟨w, rest, -, rfl⟩⟩ := stepWith_cases cfg s t hstep
  · exact (inv_congr s _ rfl rfl rfl).mpr h
  · exact inv_of_cleared _ rfl rfl
  · exact inv_transitioned _ _ (inv_afterCheck ((s.setInputs rest).setOut []) h)

/-- While LOCKED no bit is dead: related states are then the same state (R53). -/
theorem eq_of_sameButDeadBits_of_locked (s t : State) (h : sameButDeadBits s t) (hlocked : s.phase = .locked) : s = t := by
  obtain ⟨hphase, hts, hsym, hin, hout, hlive⟩ := h
  obtain ⟨hindex, hbuf⟩ := hlive hlocked
  exact State.eq_of_fields s t hphase hindex hbuf hts hsym hin hout

/-- A transition from UNLOCKED brings no dead bit back to life: LOCK clears index and cells (R123, R134). -/
theorem sameButDeadBits_transitioned_of_unlocked (sym : Symbol) (s t : State) (h : sameButDeadBits s t)
    (hunlocked : s.phase = .unlocked) : sameButDeadBits (transitioned sym s) (transitioned sym t) := by
  have ht : t.phase = .unlocked := h.1 ▸ hunlocked
  obtain ⟨hphase, hts, hsym, hin, hout, hlive⟩ := h
  unfold transitioned
  rw [hunlocked, ht]
  cases sym with
  | lockSync => exact ⟨rfl, hts, hsym, hin, hout, fun _ => ⟨rfl, rfl⟩⟩
  | ignored | bitZero | bitOne | abort => exact ⟨hphase, hts, hsym, hin, hout, hlive⟩

/-- An edge step from UNLOCKED keeps the relation: no frame is pending, and the symbol does not depend on dead bits (R53). -/
theorem sameButDeadBits_afterEdge_of_unlocked (cfg : Cfg) (e : EdgeEvent) (s t : State) (h : sameButDeadBits s t)
    (hunlocked : s.phase = .unlocked) : sameButDeadBits (afterEdge cfg e s) (afterEdge cfg e t) := by
  obtain ⟨hphase, hts, hsym, hin, hout, hlive⟩ := h
  have hs : frameReady s = false := frameReady_of_unlocked s hunlocked
  have ht : frameReady t = false := frameReady_of_unlocked t (hphase ▸ hunlocked)
  have hstepSymbol : stepSymbol cfg e t = stepSymbol cfg e s := by simp only [stepSymbol, hs, ht, hphase, hts]
  rw [afterEdge_not_ready cfg e s hs, afterEdge_not_ready cfg e t ht, hstepSymbol]
  obtain ⟨hphase', hts', -, hin', hout', hlive'⟩ := sameButDeadBits_transitioned_of_unlocked (stepSymbol cfg e s)
    ((s.setOut []).setPrevTs e.ts) ((t.setOut []).setPrevTs e.ts) ⟨hphase, rfl, hsym, hin, rfl, hlive⟩ hunlocked
  exact ⟨hphase', hts', rfl, hin', hout', hlive'⟩

/-- Every step from UNLOCKED keeps the relation (R53). -/
theorem sameButDeadBits_stepWith_of_unlocked (cfg : Cfg) (s t s' : State) (h : sameButDeadBits s t)
    (hunlocked : s.phase = .unlocked) (hstep : stepWith cfg s = .next s') :
    ∃ t', stepWith cfg t = .next t' ∧ sameButDeadBits s' t' := by
  obtain ⟨hphase, hts, hsym, hin, hout, hlive⟩ := h
  obtain ⟨hc, ⟨hi, rfl⟩ | ⟨rest, hi, rfl⟩ | ⟨w, rest, hi, rfl⟩⟩ := stepWith_cases cfg s s' hstep
  · exact ⟨_, stepWith_idle cfg t hc (hin ▸ hi), hphase, hts, hsym, hin, rfl, hlive⟩
  · exact ⟨_, stepWith_reset cfg t rest hc (hin ▸ hi), rfl, rfl, rfl, rfl, rfl, fun _ => ⟨rfl, rfl⟩⟩
  · exact ⟨_, stepWith_edge cfg t w rest hc (hin ▸ hi), sameButDeadBits_afterEdge_of_unlocked cfg _ _ _
      ⟨hphase, hts, hsym, rfl, hout, hlive⟩ hunlocked⟩

end Sys2Proof.Machine

namespace Sys2Proof.Proofs

open Sys2Proof.Machine

/-- Settles O36, by the cases of a step: the check only unlocks, and every transition keeps the invariant. -/
theorem stepKeepsBufferInvariant : Obligations.StepKeepsBufferInvariant :=
  ⟨inv_of_stepWith, inv_of_stepWith Config.default⟩

/-- Settles O46: related LOCKED states are equal, and from UNLOCKED only LOCK, which clears them, brings the dead bits back
into use. -/
theorem deadBitsAreUnobservable : Obligations.DeadBitsAreUnobservable := by
  unfold Obligations.DeadBitsAreUnobservable
  intro cfg s t s' h hstep
  cases hphase : s.phase with
  | unlocked => exact sameButDeadBits_stepWith_of_unlocked cfg s t s' h hphase hstep
  | locked =>
    obtain rfl := eq_of_sameButDeadBits_of_locked s t h hphase
    exact ⟨s', hstep, rfl, rfl, rfl, rfl, rfl, fun _ => ⟨rfl, rfl⟩⟩

end Sys2Proof.Proofs

/-! Proofs about the classifier (R101 to R109). -/

namespace Sys2Proof.Machine

theorem exceedsLock_iff (cfg : Cfg) (d : Timestamp) : exceedsLock cfg d = true ↔ cfg.lockThresholdUs < d.toNat := by
  simp [exceedsLock]

theorem beyondFailBounds_iff (cfg : Cfg) (d : Timestamp) :
    beyondFailBounds cfg d = true ↔ cfg.highFailUs < d.toNat ∨ d.toNat < cfg.lowFailUs := by
  simp [beyondFailBounds]

theorem beyondFailBounds_eq_false_iff (cfg : Cfg) (d : Timestamp) :
    beyondFailBounds cfg d = false ↔ ¬(cfg.highFailUs < d.toNat ∨ d.toNat < cfg.lowFailUs) := by
  rw [← beyondFailBounds_iff, Bool.not_eq_true]

theorem inBand_iff (centre tolerance : Nat) (d : Timestamp) :
    inBand centre tolerance d = true ↔
      (centre : Int) - tolerance ≤ d.toNat ∧ (d.toNat : Int) ≤ centre + tolerance := by
  simp [inBand]

theorem inBand_eq_false_iff (centre tolerance : Nat) (d : Timestamp) :
    inBand centre tolerance d = false ↔
      ¬((centre : Int) - tolerance ≤ d.toNat ∧ (d.toNat : Int) ≤ centre + tolerance) := by
  rw [← inBand_iff, Bool.not_eq_true]

/-! The classifier's equations, one for each way through its rules. -/

theorem classify_unlocked (cfg : Cfg) (d : Timestamp) (level : Level) :
    classify cfg d level .unlocked = if exceedsLock cfg d then .lockSync else .ignored := rfl

theorem classify_locked_beyond (cfg : Cfg) (d : Timestamp) (level : Level) (h : beyondFailBounds cfg d = true) :
    classify cfg d level .locked = .abort := by
  simp only [classify, h, ite_true]

theorem classify_locked_high (cfg : Cfg) (d : Timestamp) (h : beyondFailBounds cfg d = false) :
    classify cfg d .high .locked = .ignored := by
  simp only [classify, h, Bool.false_eq_true, ite_false]

theorem classify_locked_low (cfg : Cfg) (d : Timestamp) (h : beyondFailBounds cfg d = false) :
    classify cfg d .low .locked =
      if inBand cfg.lowPulseUs cfg.toleranceUs d then .bitOne
      else if inBand cfg.highPulseUs cfg.toleranceUs d then .bitZero
      else .ignored := by
  simp only [classify, h, Bool.false_eq_true, ite_false]

/-! When each symbol is given. -/

theorem classify_eq_lockSync_iff (cfg : Cfg) (d : Timestamp) (level : Level) (p : Phase) :
    classify cfg d level p = .lockSync ↔ p = .unlocked ∧ exceedsLock cfg d = true := by
  cases p with
  | unlocked => simp [classify_unlocked]
  | locked => simp [(classify_range cfg d level .locked).2]

theorem classify_eq_abort_iff (cfg : Cfg) (d : Timestamp) (level : Level) (p : Phase) :
    classify cfg d level p = .abort ↔ p = .locked ∧ beyondFailBounds cfg d = true := by
  cases p with
  | unlocked =>
    obtain h | h := (classify_range cfg d level .unlocked).1 rfl <;> simp [h]
  | locked =>
    cases hb : beyondFailBounds cfg d with
    | true => simp [classify_locked_beyond cfg d level hb]
    | false =>
      cases level with
      | high => simp [classify_locked_high cfg d hb]
      | low =>
        rw [classify_locked_low cfg d hb]
        split_ifs <;> simp

/-- A bit symbol is given only while LOCKED, within the fail bounds and at level low (R104, R105). -/
theorem locked_low_of_classify_bit (cfg : Cfg) (d : Timestamp) (level : Level) (p : Phase)
    (h : classify cfg d level p = .bitOne ∨ classify cfg d level p = .bitZero) :
    p = .locked ∧ beyondFailBounds cfg d = false ∧ level = .low := by
  cases p with
  | unlocked =>
    obtain h' | h' := (classify_range cfg d level .unlocked).1 rfl <;> simp [h'] at h
  | locked =>
    cases hb : beyondFailBounds cfg d with
    | true => simp [classify_locked_beyond cfg d level hb] at h
    | false =>
      cases level with
      | high => simp [classify_locked_high cfg d hb] at h
      | low => exact ⟨rfl, rfl, rfl⟩

theorem classify_eq_bitOne_iff (cfg : Cfg) (d : Timestamp) (level : Level) (p : Phase) :
    classify cfg d level p = .bitOne ↔
      p = .locked ∧ beyondFailBounds cfg d = false ∧ level = .low ∧ inBand cfg.lowPulseUs cfg.toleranceUs d = true := by
  constructor
  · intro h
    obtain ⟨rfl, hb, rfl⟩ := locked_low_of_classify_bit cfg d level p (.inl h)
    rw [classify_locked_low cfg d hb] at h
    refine ⟨rfl, hb, rfl, ?_⟩
    by_contra hband
    rw [if_neg hband] at h
    split at h <;> cases h
  · rintro ⟨rfl, hb, rfl, hband⟩
    rw [classify_locked_low cfg d hb, if_pos hband]

theorem classify_eq_bitZero_iff (cfg : Cfg) (d : Timestamp) (level : Level) (p : Phase) :
    classify cfg d level p = .bitZero ↔
      p = .locked ∧ beyondFailBounds cfg d = false ∧ level = .low ∧
        inBand cfg.lowPulseUs cfg.toleranceUs d = false ∧ inBand cfg.highPulseUs cfg.toleranceUs d = true := by
  constructor
  · intro h
    obtain ⟨rfl, hb, rfl⟩ := locked_low_of_classify_bit cfg d level p (.inr h)
    rw [classify_locked_low cfg d hb] at h
    refine ⟨rfl, hb, rfl, ?_⟩
    split_ifs at h with hlow hhigh
    exact ⟨Bool.not_eq_true _ ▸ hlow, hhigh⟩
  · rintro ⟨rfl, hb, rfl, hlow, hhigh⟩
    rw [classify_locked_low cfg d hb, hlow, hhigh]
    rfl

/-- IGNORED is the symbol of a duration that meets no other rule's condition (R106). -/
theorem classify_eq_ignored_iff (cfg : Cfg) (d : Timestamp) (level : Level) (p : Phase) :
    classify cfg d level p = .ignored ↔
      ¬(p = .unlocked ∧ exceedsLock cfg d = true) ∧ ¬(p = .locked ∧ beyondFailBounds cfg d = true) ∧
      ¬(p = .locked ∧ level = .low ∧ inBand cfg.lowPulseUs cfg.toleranceUs d = true) ∧
      ¬(p = .locked ∧ level = .low ∧ inBand cfg.highPulseUs cfg.toleranceUs d = true) := by
  cases p with
  | unlocked => simp [classify_unlocked]
  | locked =>
    cases hb : beyondFailBounds cfg d with
    | true => simp [classify_locked_beyond cfg d level hb]
    | false =>
      cases level with
      | high => simp [classify_locked_high cfg d hb]
      | low =>
        rw [classify_locked_low cfg d hb]
        split_ifs with hlow hhigh
        · simp [hlow]
        · simp [hhigh]
        · simp [hlow, hhigh]

/-! The conditions under the default configuration (R6). -/

theorem exceedsLock_default_iff (d : Timestamp) : exceedsLock Config.default d = true ↔ 5001 ≤ d.toNat :=
  exceedsLock_iff Config.default d

theorem beyondFailBounds_default_iff (d : Timestamp) :
    beyondFailBounds Config.default d = true ↔ 2001 ≤ d.toNat ∨ d.toNat ≤ 199 := by
  rw [beyondFailBounds_iff]
  simp only [Config.default]
  omega

theorem inBand_low_default_iff (d : Timestamp) :
    inBand Config.default.lowPulseUs Config.default.toleranceUs d = true ↔ 450 ≤ d.toNat ∧ d.toNat ≤ 650 := by
  rw [inBand_iff]
  simp only [Config.default]
  omega

theorem inBand_high_default_iff (d : Timestamp) :
    inBand Config.default.highPulseUs Config.default.toleranceUs d = true ↔ 1200 ≤ d.toNat ∧ d.toNat ≤ 1400 := by
  rw [inBand_iff]
  simp only [Config.default]
  omega

theorem classify_default_eq_bitOne_iff (d : Timestamp) (level : Level) (p : Phase) :
    classify Config.default d level p = .bitOne ↔ p = .locked ∧ level = .low ∧ 450 ≤ d.toNat ∧ d.toNat ≤ 650 := by
  rw [classify_eq_bitOne_iff, ← Bool.not_eq_true, beyondFailBounds_default_iff, inBand_low_default_iff]
  have hwithin : 450 ≤ d.toNat ∧ d.toNat ≤ 650 → ¬(2001 ≤ d.toNat ∨ d.toNat ≤ 199) := by omega
  tauto

theorem classify_default_eq_bitZero_iff (d : Timestamp) (level : Level) (p : Phase) :
    classify Config.default d level p = .bitZero ↔ p = .locked ∧ level = .low ∧ 1200 ≤ d.toNat ∧ d.toNat ≤ 1400 := by
  rw [classify_eq_bitZero_iff, ← Bool.not_eq_true, ← Bool.not_eq_true, beyondFailBounds_default_iff,
    inBand_low_default_iff, inBand_high_default_iff]
  have hwithin : 1200 ≤ d.toNat ∧ d.toNat ≤ 1400 →
      ¬(2001 ≤ d.toNat ∨ d.toNat ≤ 199) ∧ ¬(450 ≤ d.toNat ∧ d.toNat ≤ 650) := by omega
  tauto

theorem classify_default_eq_ignored_of_locked_low (d : Timestamp)
    (h : (200 ≤ d.toNat ∧ d.toNat ≤ 449) ∨ (651 ≤ d.toNat ∧ d.toNat ≤ 1199) ∨ (1401 ≤ d.toNat ∧ d.toNat ≤ 2000)) :
    classify Config.default d .low .locked = .ignored := by
  rw [classify_eq_ignored_iff, beyondFailBounds_default_iff, inBand_low_default_iff, inBand_high_default_iff]
  exact ⟨by simp, by omega, by omega, by omega⟩

/-- Every pair of a phase and the symbol the classifier gives in it selects a row (R109). -/
theorem transitionOf_classify (cfg : Cfg) (d : Timestamp) (level : Level) (p : Phase) :
    ∃ i, transitionOf p (classify cfg d level p) = .ok i := by
  cases p with
  | unlocked =>
    obtain h | h := (classify_range cfg d level .unlocked).1 rfl <;> rw [h] <;> exact ⟨_, rfl⟩
  | locked =>
    have hne := (classify_range cfg d level .locked).2 rfl
    cases h : classify cfg d level .locked with
    | lockSync => exact absurd h hne
    | ignored | bitZero | bitOne | abort => exact ⟨_, rfl⟩

end Sys2Proof.Machine

namespace Sys2Proof.Proofs

open Sys2Proof.Machine

/-- Settles O10, row by row, from the conditions under the default configuration. -/
theorem classifyDefaultPartition : Obligations.ClassifyDefaultPartition := by
  unfold Obligations.ClassifyDefaultPartition
  intro d level
  have hbeyond := beyondFailBounds_default_iff d
  have hwithin : 200 ≤ d.toNat → d.toNat ≤ 2000 → beyondFailBounds Config.default d = false := by
    rw [← Bool.not_eq_true, hbeyond]
    omega
  refine ⟨fun h => ?_, fun h => ?_, fun h => ?_, fun h => ?_, fun h h' => ?_, fun h h' => ?_, fun h h' => ?_,
    fun h h' => ?_, fun h h' => ?_, fun h h' => ?_⟩
  · rw [classify_unlocked, if_neg]
    rw [exceedsLock_default_iff]
    omega
  · rw [classify_unlocked, if_pos ((exceedsLock_default_iff d).mpr h)]
  · exact classify_locked_beyond _ d level (hbeyond.mpr (.inr h))
  · exact classify_locked_beyond _ d level (hbeyond.mpr (.inl h))
  · exact classify_locked_high _ d (hwithin h h')
  · exact classify_default_eq_ignored_of_locked_low d (.inl ⟨h, h'⟩)
  · exact (classify_default_eq_bitOne_iff d .low .locked).mpr ⟨rfl, rfl, h, h'⟩
  · exact classify_default_eq_ignored_of_locked_low d (.inr (.inl ⟨h, h'⟩))
  · exact (classify_default_eq_bitZero_iff d .low .locked).mpr ⟨rfl, rfl, h, h'⟩
  · exact classify_default_eq_ignored_of_locked_low d (.inr (.inr ⟨h, h'⟩))

/-- Settles O11: when each bit symbol is given, with the bands and the fail bounds in numbers. -/
theorem bitBandsAreClosed : Obligations.BitBandsAreClosed := by
  unfold Obligations.BitBandsAreClosed
  refine ⟨fun cfg d level p => ⟨?_, ?_⟩,
    fun d level p => ⟨classify_default_eq_bitOne_iff d level p, classify_default_eq_bitZero_iff d level p⟩⟩
  · rw [classify_eq_bitOne_iff, beyondFailBounds_eq_false_iff, inBand_iff]
  · rw [classify_eq_bitZero_iff, beyondFailBounds_eq_false_iff, inBand_eq_false_iff, inBand_iff]

/-- Settles O12: when each of the three symbols is given, with the thresholds in numbers. -/
theorem lockAndAbortThresholds : Obligations.LockAndAbortThresholds := by
  unfold Obligations.LockAndAbortThresholds
  intro cfg d level p
  refine ⟨?_, ?_, ?_⟩
  · rw [classify_eq_lockSync_iff, exceedsLock_iff]
  · rw [classify_eq_abort_iff, beyondFailBounds_iff]
  · rw [classify_eq_ignored_iff, exceedsLock_iff, beyondFailBounds_iff, inBand_iff, inBand_iff]

/-- Settles O13: the selector's word decodes to the operation map's cell, and the classifier stays off the unreachable ones. -/
theorem classifierSelectsARow : Obligations.ClassifierSelectsARow := by
  unfold Obligations.ClassifierSelectsARow
  intro cfg d level p
  rw [decode_selectorWord]
  exact transitionOf_classify cfg d level p

end Sys2Proof.Proofs

/-! Proofs about the edge step (R120, R121) and the step on one input. -/

namespace Sys2Proof.Machine

open Sys2Proof.Safety

/-! The transitions, one equation for each row of R74. -/

theorem transitioned_lockSync (s : State) (h : s.phase = .unlocked) : transitioned .lockSync s = lockFrame s := by
  simp only [transitioned, h]

theorem transitioned_abort (s : State) (h : s.phase = .locked) : transitioned .abort s = releaseFrame s := by
  simp only [transitioned, h]

theorem transitioned_ignored (s : State) : transitioned .ignored s = s := by
  cases h : s.phase <;> simp only [transitioned, h]

theorem transitioned_bitOne (s : State) (h : s.phase = .locked) : transitioned .bitOne s = appendBit true s := by
  simp only [transitioned, h]

theorem transitioned_bitZero (s : State) (h : s.phase = .locked) : transitioned .bitZero s = appendBit false s := by
  simp only [transitioned, h]

/-- Only ABORT leaves LOCKED (R127). -/
theorem transitioned_phase_of_locked (sym : Symbol) (s : State) (h : s.phase = .locked) (hsym : sym ≠ .abort) :
    (transitioned sym s).phase = .locked := by
  unfold transitioned
  split <;> simp_all

/-- With no frame pending the symbol is classified in the phase the state has (R101). -/
theorem stepSymbol_not_ready (cfg : Cfg) (e : EdgeEvent) (s : State) (h : frameReady s = false) :
    stepSymbol cfg e s = classify cfg (duration e.ts s.prevTs) e.level s.phase := by
  simp [stepSymbol, h]

/-- With a frame pending the symbol is classified while UNLOCKED (R120, R207). -/
theorem stepSymbol_ready (cfg : Cfg) (e : EdgeEvent) (s : State) (h : frameReady s = true) :
    stepSymbol cfg e s = classify cfg (duration e.ts s.prevTs) e.level .unlocked := by
  simp [stepSymbol, h]

theorem afterEdge_out_of_not_ready (cfg : Cfg) (e : EdgeEvent) (s : State) (h : frameReady s = false) :
    (afterEdge cfg e s).out = [] := by
  simp [afterEdge_out, h]

/-- An edge that is not an ABORT leaves a LOCKED state with no frame pending LOCKED (R125, R126, R128). -/
theorem afterEdge_phase_of_locked (cfg : Cfg) (e : EdgeEvent) (s : State) (h : frameReady s = false)
    (hlocked : s.phase = .locked) (hsym : stepSymbol cfg e s ≠ .abort) : (afterEdge cfg e s).phase = .locked := by
  rw [afterEdge_not_ready cfg e s h, State.setLastSym_phase]
  exact transitioned_phase_of_locked _ _ hlocked hsym

/-- An ABORT only unlocks, and stores what every edge step stores (R127). -/
theorem afterEdge_abort (cfg : Cfg) (e : EdgeEvent) (s : State) (h : frameReady s = false)
    (hlocked : s.phase = .locked) (hsym : stepSymbol cfg e s = .abort) :
    afterEdge cfg e s = (releaseFrame ((s.setOut []).setPrevTs e.ts)).setLastSym .abort := by
  rw [afterEdge_not_ready cfg e s h, hsym,
    transitioned_abort ((s.setOut []).setPrevTs e.ts) hlocked]

/-- IGNORED stores what every edge step stores, and nothing else (R75). -/
theorem afterEdge_ignored (cfg : Cfg) (e : EdgeEvent) (s : State) (h : frameReady s = false)
    (hsym : stepSymbol cfg e s = .ignored) :
    afterEdge cfg e s = ((s.setOut []).setPrevTs e.ts).setLastSym .ignored := by
  rw [afterEdge_not_ready cfg e s h, hsym, transitioned_ignored]

/-- LOCK_SYNC leaves a fresh frame: LOCKED, index 0, every cell 0, whether or not a frame was completed first (R123, R207). -/
theorem afterEdge_lockSync (cfg : Cfg) (e : EdgeEvent) (s : State) (hsym : stepSymbol cfg e s = .lockSync) :
    (afterEdge cfg e s).phase = .locked ∧ (afterEdge cfg e s).bitIndex = 0 ∧ (afterEdge cfg e s).buf = clearedBuffer := by
  have hphase : (afterCheck (s.setOut [])).phase = .unlocked := by
    have hclass : (if frameReady s then Phase.unlocked else s.phase) = .unlocked :=
      ((classify_eq_lockSync_iff _ _ _ _).mp hsym).1
    unfold afterCheck
    split
    next => rfl
    next hready => rwa [if_neg (show ¬frameReady s = true from hready)] at hclass
  rw [afterEdge, hsym, transitioned_lockSync ((afterCheck (s.setOut [])).setPrevTs e.ts) hphase]
  exact ⟨rfl, rfl, rfl⟩

/-- A step on an edge answers the state after that edge (R57, R120). -/
theorem eq_afterEdge_of_stepWith (cfg : Cfg) (s t : State) (w : EventWord) (rest : List Input)
    (hi : s.inputs = .edge w :: rest) (h : stepWith cfg s = .next t) :
    t = afterEdge cfg (decodeEvent w) (s.setInputs rest) := by
  obtain ⟨hc, -⟩ := stepWith_cases cfg s t h
  rw [stepWith_edge cfg s w rest hc hi] at h
  cases h
  rfl

/-- Under an accepted configuration every state has a next state (R200). -/
theorem exists_stepWith_eq_next (cfg : Cfg) (s : State) (hc : cfg.wf = true) : ∃ t, stepWith cfg s = .next t := by
  cases hi : s.inputs with
  | nil => exact ⟨_, stepWith_idle cfg s hc hi⟩
  | cons x rest =>
    cases x with
    | edge w => exact ⟨_, stepWith_edge cfg s w rest hc hi⟩
    | reset => exact ⟨_, stepWith_reset cfg s rest hc hi⟩

/-! How the words of the table steer the step (R84). -/

/-- The step on an edge is the check and then the move (R120). -/
theorem stepWith_eq_check_andThen_move (cfg : Cfg) (s : State) (w : EventWord) (rest : List Input) (hc : cfg.wf = true)
    (hi : s.inputs = .edge w :: rest) :
    stepWith cfg s =
      andThen (frameCheck ((s.setInputs rest).setOut [])) (classifyAndMove cfg (decodeEvent w)) := by
  simp only [stepWith, hc, ite_true, hi, edgeStep]

theorem frameCheck_of_ok (s : State) (j : Instr) (h : decode .stateCheck (stateCheckWord s) = .ok j) :
    frameCheck s = exec j s := by
  simp only [frameCheck, h]

theorem frameCheck_of_error (s : State) (err : DecodeError) (h : decode .stateCheck (stateCheckWord s) = .error err) :
    frameCheck s = .next s := by
  simp only [frameCheck, h]

theorem runRow_of_ok (f : Format) (w : BitVec 8) (s : State) (i : Instr) (h : decode f w = .ok i) :
    runRow f w s = exec i s := by
  simp only [runRow, h]

/-- Parts (2) to (4) run the row that the selector's word decodes to, and then record the symbol (R120). -/
theorem classifyAndMove_of_ok (cfg : Cfg) (e : EdgeEvent) (s : State) (i : Instr)
    (h : decode .phaseSymbol (selectorWord s.phase (classify cfg (duration e.ts s.prevTs) e.level s.phase)) = .ok i) :
    classifyAndMove cfg e s = andThen (exec i (s.setPrevTs e.ts)) fun t =>
      .next (t.setLastSym (classify cfg (duration e.ts s.prevTs) e.level s.phase)) := by
  simp only [classifyAndMove, runRow_of_ok _ _ _ i h]

/-- The interpreter operation of a kind is the row that the kind's word decodes to (R77, R84). -/
theorem runInterpreter_eq_exec (kind : Nibble) (s : State) (i : Instr)
    (h : decode .measureKind (kindWord kind) = .ok i) : runInterpreter kind s = exec i s := by
  rw [decode_kindWord] at h
  unfold runInterpreter
  split_ifs at h ⊢ <;> cases h <;> rfl

end Sys2Proof.Machine

namespace Sys2Proof.Proofs

open Sys2Proof.Machine Sys2Proof.Safety

/-- Settles O34, by the three kinds of next input. -/
theorem stepAlwaysAnswersNext : Obligations.StepAlwaysAnswersNext :=
  ⟨exists_stepWith_eq_next, fun s => exists_stepWith_eq_next Config.default s rfl⟩

/-- Settles O38, from the fields of the state after an edge. -/
theorem everyEdgeStoresItsTime : Obligations.EveryEdgeStoresItsTime := by
  unfold Obligations.EveryEdgeStoresItsTime
  intro cfg s t w rest hi hstep
  obtain rfl := eq_afterEdge_of_stepWith cfg s t w rest hi hstep
  refine ⟨afterEdge_prevTs _ _ _, afterEdge_inputs _ _ _, ?_⟩
  simp only [afterEdge_lastSym, stepSymbol, frameReady_iff, State.setInputs_phase, State.setInputs_bitIndex,
    State.setInputs_prevTs]

/-- Settles O39: an edge step puts out what the frame-complete check puts out. -/
theorem edgeStepOutput : Obligations.EdgeStepOutput := by
  unfold Obligations.EdgeStepOutput
  intro cfg s t w rest hi hstep
  obtain rfl := eq_afterEdge_of_stepWith cfg s t w rest hi hstep
  exact ⟨fun hpending => afterEdge_out_of_ready _ _ _ ((frameReady_iff _).mpr hpending),
    fun hpending => afterEdge_out_of_not_ready _ _ _ ((frameReady_eq_false_iff _).mpr hpending)⟩

/-- Settles O40: beyond the fail bounds the symbol is ABORT, and within them it is one that stays LOCKED. -/
theorem timingAnomalyAborts : Obligations.TimingAnomalyAborts := by
  unfold Obligations.TimingAnomalyAborts
  intro cfg s w rest hc hi hlocked hindex d
  have hready : frameReady (s.setInputs rest) = false :=
    (frameReady_eq_false_iff _).mpr fun hpending => hindex hpending.2
  have hsym : stepSymbol cfg (decodeEvent w) (s.setInputs rest) = classify cfg d (decodeEvent w).level .locked := by
    rw [stepSymbol_not_ready _ _ _ hready, State.setInputs_phase, hlocked]
    rfl
  refine ⟨fun hbeyond => ?_, fun hwithin => ?_⟩
  · rw [classify_locked_beyond cfg d _ ((beyondFailBounds_iff cfg d).mpr hbeyond)] at hsym
    refine ⟨_, stepWith_edge cfg s w rest hc hi, ?_, afterEdge_out_of_not_ready _ _ _ hready⟩
    rw [afterEdge_abort _ _ _ hready hlocked hsym]
    rfl
  · have hne : classify cfg d (decodeEvent w).level .locked ≠ .abort := by
      rw [Ne, classify_eq_abort_iff, beyondFailBounds_iff]
      exact fun h => hwithin h.2
    refine ⟨_, stepWith_edge cfg s w rest hc hi,
      afterEdge_phase_of_locked _ _ _ hready hlocked (hsym ▸ hne), fun hlow hhigh => ?_⟩
    rw [afterEdge_lastSym, hsym, classify_eq_ignored_iff, beyondFailBounds_iff, hlow, hhigh]
    simp [hwithin]

/-- Settles O43: the transition of IGNORED is the identity. -/
theorem ignoredChangesOnlyTheTime : Obligations.IgnoredChangesOnlyTheTime := by
  unfold Obligations.IgnoredChangesOnlyTheTime
  intro cfg s w rest hc hi hpending hsym
  have hready : frameReady (s.setInputs rest) = false := (frameReady_eq_false_iff _).mpr hpending
  rw [stepWith_edge cfg s w rest hc hi,
    afterEdge_ignored cfg _ _ hready ((stepSymbol_not_ready _ _ _ hready).trans hsym)]
  rfl

/-- Settles O44: such a duration is beyond the high fail bound while LOCKED, and a lock gap once the check has unlocked. -/
theorem lockGapWhileLocked : Obligations.LockGapWhileLocked := by
  unfold Obligations.LockGapWhileLocked
  intro cfg s w rest hc hbounds hi hlocked hgap
  refine ⟨_, stepWith_edge cfg s w rest hc hi, fun hindex => ?_, fun hindex => ?_⟩
  · have hready : frameReady (s.setInputs rest) = false :=
      (frameReady_eq_false_iff _).mpr fun hpending => hindex hpending.2
    have hsym : stepSymbol cfg (decodeEvent w) (s.setInputs rest) = .abort := by
      rw [stepSymbol_not_ready _ _ _ hready, classify_eq_abort_iff, beyondFailBounds_iff]
      exact ⟨hlocked, .inl (Nat.lt_of_le_of_lt hbounds hgap)⟩
    rw [afterEdge_abort _ _ _ hready hlocked hsym]
    exact ⟨rfl, rfl, rfl⟩
  · have hready : frameReady (s.setInputs rest) = true := (frameReady_iff _).mpr ⟨hlocked, hindex⟩
    have hsym : stepSymbol cfg (decodeEvent w) (s.setInputs rest) = .lockSync := by
      rw [stepSymbol_ready _ _ _ hready, classify_eq_lockSync_iff, exceedsLock_iff]
      exact ⟨rfl, hgap⟩
    obtain ⟨hphase, hzero, hbuf⟩ := afterEdge_lockSync _ _ _ hsym
    refine ⟨hphase, hzero, fun i => ?_, afterEdge_out_of_ready _ _ _ hready⟩
    rw [hbuf, cell_clearedBuffer]

/-- Settles O33, place by place: each part of the step decodes a word and runs the row it stands for. -/
theorem stepRunsDecodedRow : Obligations.StepRunsDecodedRow := by
  unfold Obligations.StepRunsDecodedRow
  refine ⟨fun cfg s w rest hc hi => ?_, fun cfg s rest i hc hi hdec => ?_, stepWith_idle, fun s i hphase hindex hdec => ?_⟩
  · have hedge := stepWith_eq_check_andThen_move cfg s w rest hc hi
    refine ⟨fun err i hcheck hsel => ?_, fun j i s1 hcheck hexec hsel => ?_⟩
    · rw [hedge, frameCheck_of_error ((s.setInputs rest).setOut []) err hcheck, andThen_next]
      exact classifyAndMove_of_ok cfg _ _ i hsel
    · rw [hedge, frameCheck_of_ok ((s.setInputs rest).setOut []) j hcheck]
      exact (congrArg (andThen · _) hexec).trans (classifyAndMove_of_ok cfg _ _ i hsel)
  · simp only [stepWith, hc, ite_true, hi]
    exact runRow_of_ok _ _ _ i hdec
  · have hready : frameReady s = true := (frameReady_iff s).mpr ⟨hphase, hindex⟩
    simp only [exec, execFrameComplete, hready, ite_true, runInterpreter_eq_exec _ _ i hdec]
    rfl

/-- Settles O35: no other packet length is accepted. -/
theorem configurationWithoutFieldMapRefused : Obligations.ConfigurationWithoutFieldMapRefused := by
  unfold Obligations.ConfigurationWithoutFieldMapRefused
  intro cfg s hlen
  exact stepWith_refused cfg s (beq_eq_false_iff_ne.mpr hlen)

/-- Settles O37: the invariant holds because the index and the cells are 0. -/
theorem resetStateHolds : Obligations.ResetStateHolds :=
  ⟨rfl, rfl, cell_clearedBuffer, rfl, rfl, rfl, inv_of_cleared _ rfl rfl⟩

end Sys2Proof.Proofs

/-! Proofs about the event word (R70) and durations (R100, R229). -/

namespace Sys2Proof.Machine

open Sys2Proof.Safety

@[simp] theorem levelOfBit_levelBit (l : Level) : levelOfBit (levelBit l) = l := by
  cases l <;> rfl

@[simp] theorem levelBit_levelOfBit (b : BitVec 1) : levelBit (levelOfBit b) = b := by
  revert b
  decide

/-- An event's word carries that event (R70). -/
@[simp] theorem decodeEvent_encodeEvent (e : EdgeEvent) : decodeEvent (encodeEvent e) = e := by
  have hts : (levelBit e.level ++ e.ts).extractLsb' 0 Config.tsWidth = e.ts := by
    rw [BitVec.extractLsb'_append_eq_of_add_le (by decide), BitVec.extractLsb'_eq_self]
  have hlevel : (levelBit e.level ++ e.ts).extractLsb' Config.tsWidth 1 = levelBit e.level := by
    rw [BitVec.extractLsb'_append_eq_of_le le_rfl, Nat.sub_self, BitVec.extractLsb'_eq_self]
  calc decodeEvent (encodeEvent e)
      = ⟨(levelBit e.level ++ e.ts).extractLsb' 0 Config.tsWidth,
          levelOfBit ((levelBit e.level ++ e.ts).extractLsb' Config.tsWidth 1)⟩ := rfl
    _ = e := by rw [hts, hlevel, levelOfBit_levelBit]

/-- A word is its event's word: no bit of it is lost (R70). -/
theorem encodeEvent_decodeEvent (w : EventWord) : encodeEvent (decodeEvent w) = w := by
  have hjoin : w.extractLsb' Config.tsWidth 1 ++ w.extractLsb' 0 Config.tsWidth = w.extractLsb' 0 (1 + Config.tsWidth) :=
    BitVec.extractLsb'_append_extractLsb'_eq_extractLsb' (Nat.zero_add _).symm
  calc encodeEvent (decodeEvent w)
      = levelBit (levelOfBit (w.extractLsb' Config.tsWidth 1)) ++ w.extractLsb' 0 Config.tsWidth := rfl
    _ = w.extractLsb' 0 (1 + Config.tsWidth) := by rw [levelBit_levelOfBit, hjoin]
    _ = w := BitVec.extractLsb'_eq_self

/-- The word's number: the level's weight is 2^TS_WIDTH (R70). -/
theorem encodeEvent_toNat (e : EdgeEvent) :
    (encodeEvent e).toNat = (levelBit e.level).toNat * 2 ^ Config.tsWidth + e.ts.toNat := by
  calc (encodeEvent e).toNat
      = (levelBit e.level).toNat <<< Config.tsWidth ||| e.ts.toNat := BitVec.toNat_append _ _
    _ = (levelBit e.level).toNat * 2 ^ Config.tsWidth + e.ts.toNat := by
      rw [← Nat.shiftLeft_add_eq_or_of_lt e.ts.isLt, Nat.shiftLeft_eq]

theorem levelBit_toNat (l : Level) : (levelBit l).toNat = if l = .high then 1 else 0 := by
  cases l <;> rfl

/-- The duration between two true times is the time between them, modulo 2^TS_WIDTH (R100, R229). -/
theorem duration_ofNat (t0 t1 : Nat) (h : t0 ≤ t1) :
    duration (BitVec.ofNat Config.tsWidth t1) (BitVec.ofNat Config.tsWidth t0) = BitVec.ofNat Config.tsWidth (t1 - t0) := by
  obtain ⟨d, rfl⟩ := Nat.exists_eq_add_of_le h
  rw [BitVec.ofNat_add, duration_after, Nat.add_sub_cancel_left]

/-- Where the timestamps do not decrease, the duration is their plain difference (R100, R222). -/
theorem duration_toNat_of_le (ts prevTs : Timestamp) (h : prevTs.toNat ≤ ts.toNat) :
    (duration ts prevTs).toNat = ts.toNat - prevTs.toNat :=
  BitVec.toNat_sub_of_le h

/-- A gap below 2^TS_WIDTH is its own duration (R229). -/
theorem ofNat_gap_toNat (gap : Nat) (h : gap < 2 ^ Config.tsWidth) : (BitVec.ofNat Config.tsWidth gap).toNat = gap := by
  rw [BitVec.toNat_ofNat, Nat.mod_eq_of_lt h]

end Sys2Proof.Machine

namespace Sys2Proof.Proofs

open Sys2Proof.Machine

/-- Settles O4: the word is the level's bit and the timestamp side by side. -/
theorem eventWordRoundTrip : Obligations.EventWordRoundTrip := by
  unfold Obligations.EventWordRoundTrip
  refine ⟨decodeEvent_encodeEvent, encodeEvent_decodeEvent, fun e => ?_⟩
  rw [encodeEvent_toNat, levelBit_toNat, ite_mul, one_mul, zero_mul]

/-- Settles O14: modulo 2^TS_WIDTH the earlier time cancels. -/
theorem durationIsElapsedTime : Obligations.DurationIsElapsedTime := by
  unfold Obligations.DurationIsElapsedTime
  refine ⟨fun t0 t1 h => ?_, fun t e es hmono => duration_toNat_of_le e.ts t hmono.1⟩
  rw [duration_ofNat t0 t1 h]
  exact ⟨BitVec.toNat_ofNat _ _, ofNat_gap_toNat _⟩

end Sys2Proof.Proofs

/-! Proofs about runs: no timeout, reset, and at most one frame per lock (R122, R131, R133). -/

namespace Sys2Proof.Machine

open Sys2Proof.Safety

@[simp] theorem outputs_cons (s : State) (run : List State) : outputs (s :: run) = s.out ++ outputs run := rfl

@[simp] theorem outputs_append (run run' : List State) : outputs (run ++ run') = outputs run ++ outputs run' :=
  List.flatMap_append

@[simp] theorem symbols_cons (s : State) (run : List State) : symbols (s :: run) = s.lastSym :: symbols run := rfl

/-- A refused step ends the run (R58). -/
theorem runSteps_of_refused (cfg : Cfg) (n : Nat) (s : State) (e : Refusal) (h : stepWith cfg s = .refused e) :
    runSteps cfg n s = [] := by
  cases n with
  | zero => rfl
  | succ n => simp only [runSteps, h]

/-- A run's states depend on the first step's outcome only. -/
theorem runSteps_congr (cfg : Cfg) (n : Nat) (s t : State) (h : stepWith cfg s = stepWith cfg t) :
    runSteps cfg n s = runSteps cfg n t := by
  cases n with
  | zero => rfl
  | succ n => simp only [runSteps, h]

/-- With no input every step answers the same state, with nothing put out (R131, R213). -/
theorem runSteps_idle (cfg : Cfg) (n : Nat) (s : State) (hc : cfg.wf = true) (hi : s.inputs = []) :
    runSteps cfg n s = List.replicate n (s.setOut []) := by
  induction n generalizing s with
  | zero => rfl
  | succ n ih =>
    rw [runSteps_succ cfg n s _ (stepWith_idle cfg s hc hi), ih (s.setOut []) hi, List.replicate_succ]
    rfl

/-- The outcome of the reset input depends on what waits after it only (R133, R220). -/
theorem stepWith_reset_congr (cfg : Cfg) (s t : State) (rest : List Input) (hs : s.inputs = .reset :: rest)
    (ht : t.inputs = .reset :: rest) : stepWith cfg s = stepWith cfg t := by
  cases hc : cfg.wf with
  | false => rw [stepWith_refused cfg s hc, stepWith_refused cfg t hc]
  | true => rw [stepWith_reset cfg s rest hc hs, stepWith_reset cfg t rest hc ht]

/-! One lock acquisition pays for one frame: a LOCKED state is one frame in hand (R122). -/

/-- The frames a state may still put out without a further lock (R122). -/
def framesInHand (s : State) : Nat := if s.phase = .locked then 1 else 0

theorem framesInHand_of_unlocked (s : State) (h : s.phase = .unlocked) : framesInHand s = 0 := by
  simp [framesInHand, h]

theorem framesInHand_of_locked (s : State) (h : s.phase = .locked) : framesInHand s = 1 := by
  simp [framesInHand, h]

theorem framesInHand_le_one (s : State) : framesInHand s ≤ 1 := by
  unfold framesInHand
  split <;> omega

/-- The events of a completed frame hold one frame (R27). -/
theorem frameEvents_frames (r : FieldRecord) : ((frameEvents r).filter isFrame).length = 1 := by
  rw [frameEvents_eq_cons]
  cases interpret r <;> rfl

/-- Only LOCK_SYNC leaves UNLOCKED (R123, R124). -/
theorem transitioned_phase_of_unlocked (sym : Symbol) (s : State) (h : s.phase = .unlocked) (hsym : sym ≠ .lockSync) :
    (transitioned sym s).phase = .unlocked := by
  unfold transitioned
  split <;> simp_all

theorem afterCheck_phase_of_ready (s : State) (h : frameReady s = true) : (afterCheck s).phase = .unlocked := by
  simp [afterCheck, h]

/-- An edge that is not a LOCK_SYNC pays for the frame it puts out with the frame in hand (R121, R122). -/
theorem frames_afterEdge_of_ne_lockSync (cfg : Cfg) (e : EdgeEvent) (s : State) (hsym : stepSymbol cfg e s ≠ .lockSync) :
    ((afterEdge cfg e s).out.filter isFrame).length + framesInHand (afterEdge cfg e s) ≤ framesInHand s := by
  cases hready : frameReady s with
  | true =>
    have hunlocked : (afterEdge cfg e s).phase = .unlocked :=
      transitioned_phase_of_unlocked _ _ (afterCheck_phase_of_ready (s.setOut []) hready) hsym
    rw [afterEdge_out_of_ready cfg e s hready, frameEvents_frames, framesInHand_of_unlocked _ hunlocked,
      framesInHand_of_locked s ((frameReady_iff s).mp hready).1]
  | false =>
    rw [afterEdge_out_of_not_ready cfg e s hready, List.filter_nil, List.length_nil, Nat.zero_add]
    cases hphase : s.phase with
    | locked => exact (framesInHand_le_one _).trans_eq (framesInHand_of_locked s hphase).symm
    | unlocked =>
      have hunlocked : (afterEdge cfg e s).phase = .unlocked := by
        rw [afterEdge_not_ready cfg e s hready, State.setLastSym_phase]
        exact transitioned_phase_of_unlocked _ _ hphase hsym
      rw [framesInHand_of_unlocked _ hunlocked]
      exact Nat.zero_le _

/-- An edge step puts out no more frames than the state has in hand (R121). -/
theorem frames_afterEdge_le (cfg : Cfg) (e : EdgeEvent) (s : State) :
    ((afterEdge cfg e s).out.filter isFrame).length ≤ framesInHand s := by
  cases hready : frameReady s with
  | true =>
    rw [afterEdge_out_of_ready cfg e s hready, frameEvents_frames,
      framesInHand_of_locked s ((frameReady_iff s).mp hready).1]
  | false =>
    rw [afterEdge_out_of_not_ready cfg e s hready]
    exact Nat.zero_le _

/-- Every step pays for its frame: what it puts out and leaves in hand is what was in hand, and one more for a LOCK_SYNC
(R122). -/
theorem frames_stepWith_le (cfg : Cfg) (s t : State) (h : stepWith cfg s = .next t) :
    (t.out.filter isFrame).length + framesInHand t ≤ (if t.lastSym = .lockSync then 1 else 0) + framesInHand s := by
  obtain ⟨-, ⟨-, rfl⟩ | ⟨rest, -, rfl⟩ | ⟨w, rest, -, rfl⟩⟩ := stepWith_cases cfg s t h
  · exact (Nat.zero_add _).trans_le (Nat.le_add_left _ _)
  · exact Nat.zero_le _
  · rw [afterEdge_lastSym]
    split
    next hsym =>
      have hframes := frames_afterEdge_le cfg (decodeEvent w) (s.setInputs rest)
      have hhand := framesInHand_le_one (afterEdge cfg (decodeEvent w) (s.setInputs rest))
      rw [Nat.add_comm 1]
      exact Nat.add_le_add hframes hhand
    next hsym =>
      rw [Nat.zero_add]
      exact frames_afterEdge_of_ne_lockSync cfg (decodeEvent w) (s.setInputs rest) hsym

/-- Over every run the frames are at most the LOCK_SYNC symbols and the frame in hand at its start (R122). -/
theorem frames_runSteps_le (cfg : Cfg) (n : Nat) (s : State) :
    ((outputs (runSteps cfg n s)).filter isFrame).length ≤
      (symbols (runSteps cfg n s)).count .lockSync + framesInHand s := by
  induction n generalizing s with
  | zero => exact Nat.zero_le _
  | succ n ih =>
    cases hstep : stepWith cfg s with
    | fault e => cases e
    | refused e =>
      rw [runSteps_of_refused cfg _ s e hstep]
      exact Nat.zero_le _
    | next t =>
      have hfirst := frames_stepWith_le cfg s t hstep
      have hrest := ih t
      rw [runSteps_succ cfg n s t hstep, outputs_cons, List.filter_append, List.length_append, symbols_cons,
        List.count_cons]
      simp only [beq_iff_eq]
      omega

end Sys2Proof.Machine

namespace Sys2Proof.Proofs

open Sys2Proof.Machine Sys2Proof.Safety

/-- Settles O42: the run is one state, repeated. -/
theorem noTimeout : Obligations.NoTimeout := by
  unfold Obligations.NoTimeout
  intro cfg s n hc hi
  rw [runSteps_idle cfg n s hc hi]
  refine ⟨List.length_replicate, ?_, fun t ht => List.eq_of_mem_replicate ht⟩
  exact List.flatMap_eq_nil_iff.mpr fun t ht => congrArg State.out (List.eq_of_mem_replicate ht)

/-- Settles O47: the two runs have the same first state. -/
theorem resetErasesHistory : Obligations.ResetErasesHistory := by
  unfold Obligations.ResetErasesHistory
  intro cfg s t rest n hs ht
  exact runSteps_congr cfg n s t (stepWith_reset_congr cfg s t rest hs ht)

/-- Settles O48, by induction on the steps: a LOCKED state counts as one frame in hand, and only LOCK_SYNC earns one. -/
theorem atMostOneFramePerLock : Obligations.AtMostOneFramePerLock := by
  unfold Obligations.AtMostOneFramePerLock
  intro cfg s n _
  exact frames_runSteps_le cfg n s

end Sys2Proof.Proofs

/-! Proofs about whole frames: while LOCKED the buffer records the bits in arrival order (I3 of R33). -/

namespace Sys2Proof.Machine

open Sys2Proof.Safety

/-- `s` is LOCKED and has received these bits since its lock, in arrival order (I3 of R33). -/
structure Recording (bits : List Bool) (s : State) : Prop where
  locked : s.phase = .locked
  index : s.bitIndex.toNat = bits.length
  cells : ∀ k < bits.length, bits[k]? = some (cell s.buf k)

namespace Recording

/-- A state just locked has received no bit (R123). -/
theorem of_bitIndex_zero (s : State) (hlocked : s.phase = .locked) (hindex : s.bitIndex = 0) : Recording [] s :=
  ⟨hlocked, by rw [hindex]; rfl, fun k hk => absurd hk (Nat.not_lt_zero k)⟩

/-- What is recorded stands in the phase, the index and the cells only. -/
theorem congr {bits : List Bool} {s t : State} (h : Recording bits s) (hphase : t.phase = s.phase)
    (hindex : t.bitIndex = s.bitIndex) (hbuf : t.buf = s.buf) : Recording bits t :=
  ⟨hphase.trans h.locked, (congrArg BitVec.toNat hindex).trans h.index, hbuf ▸ h.cells⟩

/-- No frame is pending before the 44th bit (R121). -/
theorem not_ready {bits : List Bool} {s : State} (h : Recording bits s) (hroom : bits.length < Config.packetLength) :
    frameReady s = false :=
  (frameReady_eq_false_iff s).mpr fun hpending => by
    have := h.index
    omega

/-- With 44 bits a frame is pending (R121). -/
theorem ready {bits : List Bool} {s : State} (h : Recording bits s) (hfull : bits.length = Config.packetLength) :
    frameReady s = true :=
  (frameReady_iff s).mpr ⟨h.locked, h.index.trans hfull⟩

/-- An append with room records its bit after the others (R125, R126). -/
theorem appendBit {bits : List Bool} {s : State} (h : Recording bits s) (hroom : bits.length < Config.packetLength)
    (b : Bool) : Recording (bits ++ [b]) (appendBit b s) := by
  have hindex : s.bitIndex.toNat < Config.packetLength := h.index ▸ hroom
  rw [appendBit_of_lt b s hindex]
  refine ⟨h.locked, ?_, fun k hk => ?_⟩
  · rw [State.setBitIndex_bitIndex, succ_toNat _ hindex, h.index, List.length_append, List.length_singleton]
  · rw [State.setBitIndex_buf, State.setBuf_buf, cell_setCell _ _ _ _ hindex, h.index]
    split
    next hlast => rw [hlast, List.getElem?_concat_length]
    next hne =>
      have hold : k < bits.length := by
        rw [List.length_append, List.length_singleton] at hk
        omega
      rw [List.getElem?_append_left hold, h.cells k hold]

/-- A transition that stays LOCKED records the bit its symbol carries, if any (R125, R126, R128). -/
theorem transitioned {bits : List Bool} {s : State} (h : Recording bits s) (hroom : bits.length < Config.packetLength)
    (sym : Symbol) (hlock : sym ≠ .lockSync) (habort : sym ≠ .abort) :
    Recording (bits ++ (bitOf sym).toList) (transitioned sym s) := by
  cases sym with
  | lockSync => exact absurd rfl hlock
  | abort => exact absurd rfl habort
  | ignored =>
    rw [transitioned_ignored]
    exact (List.append_nil bits).symm ▸ h
  | bitOne =>
    rw [transitioned_bitOne s h.locked]
    exact h.appendBit hroom true
  | bitZero =>
    rw [transitioned_bitZero s h.locked]
    exact h.appendBit hroom false

end Recording

theorem edges_append (es es' : List EdgeEvent) : edges (es ++ es') = edges es ++ edges es' := List.map_append

/-- The step on a waiting edge event (R26, R120). -/
theorem stepWith_edges_cons (cfg : Cfg) (s : State) (e : EdgeEvent) (es : List EdgeEvent) (rest : List Input)
    (hc : cfg.wf = true) (hi : s.inputs = edges (e :: es) ++ rest) :
    stepWith cfg s = .next (afterEdge cfg e (s.setInputs (edges es ++ rest))) := by
  rw [stepWith_edge cfg s (encodeEvent e) (edges es ++ rest) hc hi, decodeEvent_encodeEvent]

/-- An edge that does not abort records the bit its symbol carries, if any, and puts nothing out (R120, R130). -/
theorem Recording.stepWith_edge {bits : List Bool} {s : State} (h : Recording bits s)
    (hroom : bits.length < Config.packetLength) (cfg : Cfg) (hc : cfg.wf = true) (e : EdgeEvent) (es : List EdgeEvent)
    (rest : List Input) (hi : s.inputs = edges (e :: es) ++ rest)
    (habort : classify cfg (duration e.ts s.prevTs) e.level .locked ≠ .abort) :
    ∃ t, stepWith cfg s = .next t ∧ t.prevTs = e.ts ∧ t.inputs = edges es ++ rest ∧ t.out = [] ∧
      Recording (bits ++ (bitOf (classify cfg (duration e.ts s.prevTs) e.level .locked)).toList) t := by
  have hready : frameReady (s.setInputs (edges es ++ rest)) = false := h.not_ready hroom
  have hsym : stepSymbol cfg e (s.setInputs (edges es ++ rest)) =
      classify cfg (duration e.ts s.prevTs) e.level .locked := by
    rw [stepSymbol_not_ready cfg e _ hready, State.setInputs_phase, h.locked, State.setInputs_prevTs]
  refine ⟨_, stepWith_edges_cons cfg s e es rest hc hi, afterEdge_prevTs _ _ _, afterEdge_inputs _ _ _,
    afterEdge_out_of_not_ready _ _ _ hready, ?_⟩
  rw [afterEdge_not_ready cfg e _ hready, hsym]
  have hstart : Recording bits (((s.setInputs (edges es ++ rest)).setOut []).setPrevTs e.ts) := h.congr rfl rfl rfl
  exact (hstart.transitioned hroom _ ((classify_range cfg _ _ _).2 rfl) habort).congr rfl rfl rfl

/-- What a run of a LOCKED state through waiting edges comes to: it has no refused step, puts nothing out, has the rest still
waiting, and its last state has recorded these bits (I3 of R33). -/
structure RecordingRun (bits : List Bool) (rest : List Input) (n : Nat) (s : State) (run : List State) : Prop where
  length : run.length = n
  outputs : outputs run = []
  inputs : (finalState s run).inputs = rest
  recording : Recording bits (finalState s run)

/-- A silent step before such a run makes it one step longer. -/
theorem RecordingRun.cons {bits : List Bool} {rest : List Input} {n : Nat} {t : State} {run : List State}
    (h : RecordingRun bits rest n t run) (s : State) (hout : t.out = []) : RecordingRun bits rest (n + 1) s (t :: run) := by
  refine ⟨congrArg (· + 1) h.length, ?_, ?_, ?_⟩
  · rw [outputs_cons, hout, h.outputs, List.nil_append]
  · exact (finalState_cons s t run).symm ▸ h.inputs
  · exact (finalState_cons s t run).symm ▸ h.recording

/-- The symbols of all but the last event are all but the last symbol. -/
theorem lockedSymbols_dropLast (cfg : Cfg) (t : Timestamp) (es : List EdgeEvent) :
    lockedSymbols cfg t es.dropLast = (lockedSymbols cfg t es).dropLast := by
  induction es generalizing t with
  | nil => rfl
  | cons e es ih =>
    cases es with
    | nil => rfl
    | cons e' es => exact congrArg (classify cfg (duration e.ts t) e.level .locked :: ·) (ih e.ts)

/-- A run through edges that do not abort, none of them after the 44th bit, records their bits after those already there
(I3 of R33). -/
theorem recordingRun (cfg : Cfg) (hc : cfg.wf = true) (es : List EdgeEvent) (rest : List Input) (bits : List Bool) (s : State)
    (h : Recording bits s) (hi : s.inputs = edges es ++ rest) (habort : .abort ∉ lockedSymbols cfg s.prevTs es)
    (hroom : es ≠ [] → (bits ++ bitsOf (lockedSymbols cfg s.prevTs es.dropLast)).length < Config.packetLength) :
    RecordingRun (bits ++ bitsOf (lockedSymbols cfg s.prevTs es)) rest es.length s (runSteps cfg es.length s) := by
  induction es generalizing bits s with
  | nil => exact ⟨rfl, rfl, hi, (List.append_nil bits).symm ▸ h⟩
  | cons e es ih =>
    have hbits : bits.length < Config.packetLength :=
      Nat.lt_of_le_of_lt (List.length_append ▸ Nat.le_add_right _ _) (hroom (List.cons_ne_nil e es))
    rw [lockedSymbols, List.mem_cons, not_or] at habort
    obtain ⟨hne, habort'⟩ := habort
    obtain ⟨t, hstep, hts, hin, hout, hrecording⟩ := h.stepWith_edge hbits cfg hc e es rest hi (Ne.symm hne)
    have hroom' : es ≠ [] →
        (bits ++ bitsOf (lockedSymbols cfg s.prevTs (e :: es.dropLast))).length < Config.packetLength := fun hes =>
      List.dropLast_cons_of_ne_nil hes ▸ hroom (List.cons_ne_nil e es)
    have hrest := ih _ t hrecording hin
    simp only [hts, List.append_assoc, ← bitsOf_cons] at hrest
    rw [List.length_cons, runSteps_succ cfg _ s t hstep]
    exact (hrest habort' hroom').cons s hout

end Sys2Proof.Machine

namespace Sys2Proof.Proofs

open Sys2Proof.Machine Sys2Proof.Safety

/-- Settles O49, by induction on the edges, over states that have already recorded some bits. -/
theorem lockCycleRecordsBits : Obligations.LockCycleRecordsBits := by
  unfold Obligations.LockCycleRecordsBits
  intro cfg s es rest hc hlocked hindex hi habort hroom bits t
  have hrun := recordingRun cfg hc es rest [] s (.of_bitIndex_zero s hlocked hindex) hi habort fun _ =>
    (lockedSymbols_dropLast cfg s.prevTs es).symm ▸ hroom
  have hrecording : Recording bits t := hrun.recording
  refine ⟨hrecording.locked, hrecording.index, fun k hk => ?_, hrun.outputs⟩
  exact (Option.some.inj ((List.getElem?_eq_getElem hk).symm.trans (hrecording.cells k hk))).symm

end Sys2Proof.Proofs

/-! Proofs about transmissions: a tolerated packet is delivered (R102, R121, R125, R126), and the durations of a run
that stays LOCKED (R103, R230). -/

namespace Sys2Proof.Machine

open Sys2Proof.Safety

/-! The symbols of a tolerated packet under the default configuration. -/

/-- The symbol that a pulse carries its bit in (R104, R105). -/
def pulseSymbol (p : Pulse) : Symbol := if p.bit then .bitOne else .bitZero

/-- The symbols of a sequence of bits: each pulse's own, and IGNORED for the gap after it. -/
def pulseSymbols (ps : List Pulse) : List Symbol := ps.flatMap fun p => [pulseSymbol p, .ignored]

theorem bitOf_pulseSymbol (p : Pulse) : bitOf (pulseSymbol p) = some p.bit := by
  unfold pulseSymbol
  cases p.bit <;> rfl

theorem bitsOf_pulseSymbols (ps : List Pulse) : bitsOf (pulseSymbols ps) = ps.map (·.bit) := by
  induction ps with
  | nil => rfl
  | cons p ps ih =>
    rw [pulseSymbols, List.flatMap_cons, List.cons_append, bitsOf_cons, bitOf_pulseSymbol, List.cons_append, bitsOf_cons]
    exact congrArg (p.bit :: ·) ih

theorem abort_not_mem_pulseSymbols (ps : List Pulse) : .abort ∉ pulseSymbols ps := by
  intro h
  obtain ⟨p, -, hp⟩ := List.mem_flatMap.mp h
  cases hb : p.bit <;> simp [pulseSymbol, hb] at hp

/-- The last gap carries no bit, so without it the bits are the same. -/
theorem pulseSymbols_dropLast (ps : List Pulse) (p : Pulse) :
    (pulseSymbols (ps ++ [p])).dropLast = pulseSymbols ps ++ [pulseSymbol p] := by
  have hlast : pulseSymbols (ps ++ [p]) = pulseSymbols ps ++ [pulseSymbol p] ++ [.ignored] := by
    simp [pulseSymbols]
  rw [hlast, List.dropLast_concat]

theorem bitsOf_append (syms syms' : List Symbol) : bitsOf (syms ++ syms') = bitsOf syms ++ bitsOf syms' :=
  List.filterMap_append

/-- A tolerated pulse is classified as its bit: the two default bands are disjoint (R104, R105). -/
theorem classify_default_pulse (p : Pulse) (h : p.tolerated Config.default) :
    classify Config.default (BitVec.ofNat Config.tsWidth p.pulseUs) .low .locked = pulseSymbol p := by
  obtain ⟨hband, -, -⟩ := h
  unfold pulseSymbol
  cases hb : p.bit with
  | true =>
    rw [hb, if_pos rfl, inBand_low_default_iff] at hband
    exact (classify_default_eq_bitOne_iff _ _ _).mpr ⟨rfl, rfl, hband⟩
  | false =>
    rw [hb, if_neg Bool.false_ne_true, inBand_high_default_iff] at hband
    exact (classify_default_eq_bitZero_iff _ _ _).mpr ⟨rfl, rfl, hband⟩

/-- The gap after a pulse is measured from that pulse's end (R100). -/
theorem duration_gap (t : Timestamp) (pulse gap : Nat) :
    duration (t + BitVec.ofNat Config.tsWidth (pulse + gap)) (t + BitVec.ofNat Config.tsWidth pulse) =
      BitVec.ofNat Config.tsWidth gap := by
  rw [BitVec.ofNat_add, ← BitVec.add_assoc, duration_after]

/-- The symbols of tolerated bits are those of their pulses, each followed by IGNORED (R104 to R106). -/
theorem lockedSymbols_pulseEdges (t : Timestamp) (ps : List Pulse) (h : ∀ p ∈ ps, p.tolerated Config.default) :
    lockedSymbols Config.default t (pulseEdges t ps) = pulseSymbols ps := by
  induction ps generalizing t with
  | nil => rfl
  | cons p ps ih =>
    have hp := h p List.mem_cons_self
    have hrest := ih (t + BitVec.ofNat Config.tsWidth (p.pulseUs + p.gapUs)) fun q hq => h q (List.mem_cons_of_mem p hq)
    simp only [pulseEdges, lockedSymbols, eventAfter, duration_after, duration_gap, classify_default_pulse p hp,
      classify_locked_high _ _ hp.2.2, hrest]
    rfl

theorem pulseEdges_length (t : Timestamp) (ps : List Pulse) : (pulseEdges t ps).length = 2 * ps.length := by
  induction ps generalizing t with
  | nil => rfl
  | cons p ps ih =>
    simp only [pulseEdges, List.length_cons, ih]
    omega

/-- A lock gap locks an UNLOCKED state, which then records from an empty frame (R102, R123). -/
theorem recording_of_lock_gap (cfg : Cfg) (hc : cfg.wf = true) (s : State) (gap : Nat) (level : Level)
    (es : List EdgeEvent) (rest : List Input) (hunlocked : s.phase = .unlocked) (hlock : cfg.lockThresholdUs < gap)
    (hgap : gap < 2 ^ Config.tsWidth) (hi : s.inputs = edges (eventAfter s.prevTs gap level :: es) ++ rest) :
    ∃ t, stepWith cfg s = .next t ∧ t.prevTs = s.prevTs + BitVec.ofNat Config.tsWidth gap ∧
      t.inputs = edges es ++ rest ∧ t.out = [] ∧ Recording [] t := by
  have hready : frameReady (s.setInputs (edges es ++ rest)) = false := frameReady_of_unlocked _ hunlocked
  have hsym : stepSymbol cfg (eventAfter s.prevTs gap level) (s.setInputs (edges es ++ rest)) = .lockSync := by
    rw [stepSymbol_not_ready _ _ _ hready, classify_eq_lockSync_iff, State.setInputs_prevTs, eventAfter, duration_after,
      exceedsLock_iff, ofNat_gap_toNat gap hgap]
    exact ⟨hunlocked, hlock⟩
  obtain ⟨hlocked, hindex, -⟩ := afterEdge_lockSync _ _ _ hsym
  exact ⟨_, stepWith_edges_cons cfg s _ es rest hc hi, afterEdge_prevTs _ _ _, afterEdge_inputs _ _ _,
    afterEdge_out_of_not_ready _ _ _ hready, .of_bitIndex_zero _ hlocked hindex⟩

/-- A run through the edges of a tolerated packet, but for the last gap's, has recorded its bits (I3 of R33). -/
theorem recordingRun_of_tolerated (s : State) (ps : List Pulse) (rest : List Input) (h : Recording [] s)
    (hlen : ps.length = Config.packetLength) (htol : ∀ p ∈ ps, p.tolerated Config.default)
    (hi : s.inputs = edges (pulseEdges s.prevTs ps).dropLast ++ rest) :
    RecordingRun (ps.map (·.bit)) rest (2 * Config.packetLength - 1) s
      (runSteps Config.default (2 * Config.packetLength - 1) s) := by
  obtain ⟨qs, p, rfl⟩ : ∃ qs p, ps = qs ++ [p] :=
    (List.eq_nil_or_concat' ps).resolve_left fun hnil => by simp [hnil] at hlen
  have hsyms : lockedSymbols Config.default s.prevTs (pulseEdges s.prevTs (qs ++ [p])).dropLast =
      pulseSymbols qs ++ [pulseSymbol p] := by
    rw [lockedSymbols_dropLast, lockedSymbols_pulseEdges _ _ htol, pulseSymbols_dropLast]
  have hbits : bitsOf (pulseSymbols qs ++ [pulseSymbol p]) = (qs ++ [p]).map (·.bit) := by
    rw [bitsOf_append, bitsOf_pulseSymbols, bitsOf_cons, bitOf_pulseSymbol, List.map_append]
    rfl
  have hcount : (pulseEdges s.prevTs (qs ++ [p])).dropLast.length = 2 * Config.packetLength - 1 := by
    rw [List.length_dropLast, pulseEdges_length, hlen]
  have hrun := recordingRun Config.default rfl (pulseEdges s.prevTs (qs ++ [p])).dropLast rest [] s h hi
    (fun habort => by
      rw [hsyms, ← pulseSymbols_dropLast] at habort
      exact abort_not_mem_pulseSymbols _ (List.mem_of_mem_dropLast habort))
    (fun _ => by
      rw [lockedSymbols_dropLast, hsyms, List.dropLast_concat, bitsOf_pulseSymbols, List.nil_append, List.length_map,
        ← hlen, List.length_append, List.length_singleton]
      omega)
  rwa [hsyms, hbits, hcount] at hrun

/-- The edge after the 44th bit puts out the frame of those bits, whatever its time and level (R121, R130). -/
theorem runSteps_one_of_full (cfg : Cfg) (hc : cfg.wf = true) (s : State) (bits : List Bool) (e : EdgeEvent)
    (rest : List Input) (h : Recording bits s) (hfull : bits.length = Config.packetLength)
    (hi : s.inputs = edges [e] ++ rest) : outputs (runSteps cfg 1 s) = frameEvents (decodeFields s.buf) := by
  have hready : frameReady (s.setInputs (edges [] ++ rest)) = true := h.ready hfull
  rw [runSteps_succ cfg 0 s _ (stepWith_edges_cons cfg s e [] rest hc hi), outputs_cons,
    afterEdge_out_of_ready _ _ _ hready]
  exact List.append_nil _

/-! Durations against a step budget (R230). -/

/-- Intervals of at least LOW_FAIL_US meet every budget below it (R230). -/
theorem meetsBudget_gapEdges (cfg : Cfg) (budget : Nat) (hbudget : budget < cfg.lowFailUs) (t : Timestamp)
    (gaps : List (Nat × Level)) (h : ∀ g ∈ gaps, cfg.lowFailUs ≤ g.1 ∧ g.1 < 2 ^ Config.tsWidth) :
    meetsBudget budget t (gapEdges t gaps) := by
  induction gaps generalizing t with
  | nil => trivial
  | cons g gaps ih =>
    obtain ⟨hlow, hwidth⟩ := h g List.mem_cons_self
    refine ⟨?_, ih _ fun g' hg' => h g' (List.mem_cons_of_mem g hg')⟩
    rw [eventAfter, duration_after, ofNat_gap_toNat _ hwidth]
    omega

theorem frameEvents_ne_nil (r : FieldRecord) : frameEvents r ≠ [] := by
  rw [frameEvents_eq_cons]
  exact List.cons_ne_nil _ _

/-- A step that stays LOCKED and puts nothing out had no frame pending and no ABORT, so its duration is not below LOW_FAIL_US
(R103, R121). -/
theorem lowFailUs_le_of_stays_locked (cfg : Cfg) (e : EdgeEvent) (s : State) (hlocked : s.phase = .locked)
    (hphase : (afterEdge cfg e s).phase = .locked) (hout : (afterEdge cfg e s).out = []) :
    cfg.lowFailUs ≤ (duration e.ts s.prevTs).toNat := by
  have hready : frameReady s = false := by
    by_contra h
    rw [Bool.not_eq_false] at h
    exact frameEvents_ne_nil _ ((afterEdge_out_of_ready cfg e s h).symm.trans hout)
  by_contra hlow
  have hsym : stepSymbol cfg e s = .abort := by
    rw [stepSymbol_not_ready _ _ _ hready, classify_eq_abort_iff, beyondFailBounds_iff]
    exact ⟨hlocked, .inr (Nat.lt_of_not_le hlow)⟩
  rw [afterEdge_abort _ _ _ hready hlocked hsym] at hphase
  cases hphase

/-- The durations of a run that stays LOCKED and puts nothing out meet every budget below LOW_FAIL_US (R103, R230). -/
theorem meetsBudget_of_stays_locked (cfg : Cfg) (hc : cfg.wf = true) (budget : Nat) (hbudget : budget < cfg.lowFailUs)
    (es : List EdgeEvent) (rest : List Input) (s : State) (hlocked : s.phase = .locked) (hi : s.inputs = edges es ++ rest)
    (hstay : ∀ t ∈ runSteps cfg es.length s, t.phase = .locked) (hsilent : outputs (runSteps cfg es.length s) = []) :
    meetsBudget budget s.prevTs es := by
  induction es generalizing s with
  | nil => trivial
  | cons e es ih =>
    rw [List.length_cons, runSteps_succ cfg _ s _ (stepWith_edges_cons cfg s e es rest hc hi)] at hstay hsilent
    obtain ⟨hphase, hstay'⟩ := List.forall_mem_cons.mp hstay
    obtain ⟨hout, hsilent'⟩ := List.append_eq_nil_iff.mp hsilent
    have hduration := lowFailUs_le_of_stays_locked cfg e (s.setInputs (edges es ++ rest)) hlocked hphase hout
    have hrest := ih _ hphase (afterEdge_inputs _ _ _) hstay' hsilent'
    rw [afterEdge_prevTs] at hrest
    exact ⟨Nat.lt_of_lt_of_le hbudget hduration, hrest⟩

end Sys2Proof.Machine

namespace Sys2Proof.Proofs

open Sys2Proof.Machine Sys2Proof.Safety

/-- Settles O50: the lock gap starts an empty record, the packet's edges record its bits, and the edge after them puts the frame
out. -/
theorem toleratedPacketIsDelivered : Obligations.ToleratedPacketIsDelivered := by
  unfold Obligations.ToleratedPacketIsDelivered
  intro s gap level ps last rest hunlocked hlock hgap hlen htol hi
  obtain ⟨s1, hstep, hts, hin, hout, hempty⟩ :=
    recording_of_lock_gap Config.default rfl s gap level _ rest hunlocked hlock hgap hi
  rw [edges_append, List.append_assoc, ← hts] at hin
  have hrun := recordingRun_of_tolerated s1 ps (edges [last] ++ rest) hempty hlen htol hin
  have hfull : (ps.map (·.bit)).length = Config.packetLength := List.length_map _ |>.trans hlen
  refine ⟨(finalState s1 (runSteps Config.default (2 * Config.packetLength - 1) s1)).buf, fun k hk => ?_, ?_⟩
  · have hcell := hrun.recording.cells k (by rwa [List.length_map])
    rw [List.getElem?_map, List.getElem?_eq_getElem hk] at hcell
    exact (Option.some.inj hcell).symm
  · have hsplit : runSteps Config.default (2 * Config.packetLength) s1 = _ :=
      runSteps_add Config.default (2 * Config.packetLength - 1) 1 s1 hrun.length
    rw [runSteps_succ _ _ s s1 hstep, hsplit, outputs_cons, hout, outputs_append, hrun.outputs,
      runSteps_one_of_full _ rfl _ _ last rest hrun.recording hfull hrun.inputs]
    rfl

/-- Settles O51, by induction on the intervals, and by induction on the edges of the run. -/
theorem budgetBelowLowFailSuffices : Obligations.BudgetBelowLowFailSuffices := by
  unfold Obligations.BudgetBelowLowFailSuffices
  intro cfg budget hbudget
  exact ⟨meetsBudget_gapEdges cfg budget hbudget, fun s es rest hc hlocked hi hstay hsilent =>
    meetsBudget_of_stays_locked cfg hc budget hbudget es rest s hlocked hi hstay hsilent⟩

end Sys2Proof.Proofs

/-! Proofs about the operation words and the codes (R72, R73, R77, R80, R84). -/

namespace Sys2Proof.Machine

/-! A byte that decodes to an operation is that operation's own word, format by format (R84). -/

/-- A byte below 2^n is its own lowest n bits. -/
theorem setWidth_extractLsb'_of_lt (b : BitVec 8) (n : Nat) (h : b.toNat < 2 ^ n) :
    (b.extractLsb' 0 n).setWidth 8 = b := by
  apply BitVec.eq_of_toNat_eq
  rw [BitVec.toNat_setWidth, BitVec.extractLsb'_toNat, Nat.shiftRight_zero, Nat.mod_eq_of_lt h, Nat.mod_eq_of_lt b.isLt]

theorem phase_bit_ofBit (b : BitVec 1) : (Phase.ofBit b).bit = b := by
  revert b
  decide

theorem symbol_ofCode_code (sym : Symbol) : Symbol.ofCode sym.code = some sym := by
  cases sym <;> rfl

theorem symbol_ofCode_eq_none_iff (c : BitVec 3) : Symbol.ofCode c = none ↔ 5 ≤ c.toNat := by
  revert c
  decide

/-- A code stands for the symbol that has it (R72). -/
theorem symbol_code_of_ofCode (c : BitVec 3) (sym : Symbol) (h : Symbol.ofCode c = some sym) : sym.code = c := by
  unfold Symbol.ofCode at h
  split_ifs at h with h0 h1 h2 h3 h4 <;> cases h
  · exact h0.symm
  · exact h1.symm
  · exact h2.symm
  · exact h3.symm
  · exact h4.symm

/-- The selector's byte is its four bits, extended with zeros (R84). -/
theorem selectorWord_eq_setWidth (p : Phase) (sym : Symbol) :
    selectorWord p sym = (p.bit ++ sym.code : BitVec 4).setWidth 8 := by
  cases p <;> cases sym <;> rfl

/-- Each cell of the operation map is a transition row with the selector as its word (R74, R84). -/
theorem encode_of_transitionOf (p : Phase) (sym : Symbol) (i : Instr) (h : transitionOf p sym = .ok i) :
    i.wf = true ∧ i.format = .phaseSymbol ∧ encode i = selectorWord p sym := by
  cases p <;> cases sym <;> cases h <;> exact ⟨rfl, rfl, rfl⟩

theorem encode_of_decodePhaseSymbol (w : BitVec 4) (i : Instr) (h : decodePhaseSymbol w = .ok i) :
    i.wf = true ∧ i.format = .phaseSymbol ∧ encode i = w.setWidth 8 := by
  unfold decodePhaseSymbol at h
  split at h
  next => cases h
  next sym hsym =>
    obtain ⟨hwf, hformat, hword⟩ := encode_of_transitionOf _ sym i h
    have hjoin : w.extractLsb' 3 1 ++ w.extractLsb' 0 3 = w :=
      (BitVec.extractLsb'_append_extractLsb'_eq_extractLsb' rfl).trans BitVec.extractLsb'_eq_self
    refine ⟨hwf, hformat, ?_⟩
    rw [hword, selectorWord_eq_setWidth, phase_bit_ofBit, symbol_code_of_ofCode _ sym hsym, hjoin]

theorem encode_of_decodeStateCheck (w : BitVec 7) (i : Instr) (h : decodeStateCheck w = .ok i) :
    i.wf = true ∧ i.format = .stateCheck ∧ encode i = w.setWidth 8 := by
  unfold decodeStateCheck at h
  split_ifs at h with hw
  cases h
  rw [hw]
  exact ⟨rfl, rfl, rfl⟩

theorem encode_of_decodeReset (w : BitVec 1) (i : Instr) (h : decodeReset w = .ok i) :
    i.wf = true ∧ i.format = .reset ∧ encode i = w.setWidth 8 := by
  unfold decodeReset at h
  split_ifs at h with hw
  cases h
  rw [hw]
  exact ⟨rfl, rfl, rfl⟩

theorem recognizedKind_of_ne (kind : Nibble) (h0 : kind ≠ 0) (h14 : kind ≠ 14) : recognizedKind kind = false := by
  simp only [recognizedKind, Bool.or_eq_false_iff, beq_eq_false_iff_ne]
  exact ⟨h0, h14⟩

theorem encode_of_decodeMeasureKind (w : Nibble) (i : Instr) (h : decodeMeasureKind w = .ok i) :
    i.wf = true ∧ i.format = .measureKind ∧ encode i = w.setWidth 8 := by
  unfold decodeMeasureKind at h
  split_ifs at h with h0 h14 <;> cases h
  · rw [h0]
    exact ⟨rfl, rfl, rfl⟩
  · rw [h14]
    exact ⟨rfl, rfl, rfl⟩
  · refine ⟨?_, rfl, rfl⟩
    rw [Instr.wf, recognizedKind_of_ne w h0 h14]
    rfl

/-- A byte that decodes to an operation is the word of that well-formed operation, in its format (R84). -/
theorem encode_of_decode (f : Format) (b : BitVec 8) (i : Instr) (h : decode f b = .ok i) :
    i.wf = true ∧ i.format = f ∧ encode i = b := by
  unfold decode at h
  split at h
  next hwidth =>
    have hb := setWidth_extractLsb'_of_lt b f.width hwidth
    cases f with
    | phaseSymbol => exact hb ▸ encode_of_decodePhaseSymbol _ i h
    | stateCheck => exact hb ▸ encode_of_decodeStateCheck _ i h
    | reset => exact hb ▸ encode_of_decodeReset _ i h
    | measureKind => exact hb ▸ encode_of_decodeMeasureKind _ i h
  next => cases h

/-- A well-formed operation's word decodes to it (R84). -/
theorem decode_encode (i : Instr) : i.wf = true → decode i.format (encode i) = .ok i := by
  cases i with
  | lock => exact Laws.RoundTrip.lock
  | idleUnlocked => exact Laws.RoundTrip.idleUnlocked
  | appendOne => exact Laws.RoundTrip.appendOne
  | appendZero => exact Laws.RoundTrip.appendZero
  | abort => exact Laws.RoundTrip.abort
  | idleLocked => exact Laws.RoundTrip.idleLocked
  | frameComplete => exact Laws.RoundTrip.frameComplete
  | reset => exact Laws.RoundTrip.reset
  | temperature => exact Laws.RoundTrip.temperature
  | humidity => exact Laws.RoundTrip.humidity
  | unrecognized kind => exact Laws.RoundTrip.unrecognized kind

/-! The words that are no row (R73, R121, R129). -/

/-- A reserved symbol code is rejected in either phase (R73). -/
theorem decode_reservedSymbol (p : Phase) (c : BitVec 3) (h : 5 ≤ c.toNat) :
    decode .phaseSymbol ((0 : BitVec 4) ++ p.bit ++ c) = .error (.reservedSymbol c) := by
  cases p <;> revert c <;> decide

theorem transitionOf_unreachable (p : Phase) (sym : Symbol)
    (h : (p = .unlocked ∧ (sym = .bitOne ∨ sym = .bitZero ∨ sym = .abort)) ∨ (p = .locked ∧ sym = .lockSync)) :
    transitionOf p sym = .error (.unreachablePair p sym) := by
  obtain ⟨rfl, rfl | rfl | rfl⟩ | ⟨rfl, rfl⟩ := h <;> rfl

/-- A seven-bit word is decoded as a byte by its seven bits (R84). -/
theorem decode_stateCheck_append (w : BitVec 7) : decode .stateCheck ((0 : BitVec 1) ++ w) = decodeStateCheck w := by
  have hlt : ((0 : BitVec 1) ++ w).toNat < 2 ^ Format.stateCheck.width := by
    rw [BitVec.toNat_append]
    simpa [Format.width] using w.isLt
  have hword : ((0 : BitVec 1) ++ w).extractLsb' 0 7 = w :=
    (BitVec.extractLsb'_append_eq_of_add_le le_rfl).trans BitVec.extractLsb'_eq_self
  unfold decode
  rw [if_pos hlt, hword]

theorem decode_tooWide (f : Format) (b : BitVec 8) (h : 2 ^ f.width ≤ b.toNat) : decode f b = .error (.tooWide b) := by
  unfold decode
  rw [if_neg (Nat.not_lt.mpr h)]

end Sys2Proof.Machine

namespace Sys2Proof.Proofs

open Sys2Proof.Machine Sys2Proof.Safety

/-- Settles O3, by the operations in one direction and by the formats in the other. -/
theorem instrDecodeEncode : Obligations.InstrDecodeEncode :=
  ⟨decode_encode, encode_of_decode⟩

/-- Settles O1: the words are the table's own. -/
theorem tableWordsDecode : Obligations.TableWordsDecode :=
  ⟨rfl, rfl, rfl, rfl, rfl, rfl, rfl, rfl, rfl, rfl, rfl, rfl⟩

/-- Settles O2, one kind of rejected word after the other. -/
theorem otherWordsRejected : Obligations.OtherWordsRejected := by
  unfold Obligations.OtherWordsRejected
  refine ⟨decode_reservedSymbol, fun p sym h => ?_, fun w hw => ?_, rfl, decode_tooWide⟩
  · rw [decode_selectorWord, transitionOf_unreachable p sym h]
  · rw [decode_stateCheck_append, decodeStateCheck, if_neg hw]

/-- Settles O9: the codes are listed by symbol and by unit, and the reserved ones by their number. -/
theorem portCodes : Obligations.PortCodes := by
  unfold Obligations.PortCodes
  refine ⟨⟨rfl, rfl, rfl, rfl, rfl⟩, ⟨rfl, rfl, rfl⟩, symbol_ofCode_code, symbol_ofCode_eq_none_iff, fun sym b h => ?_,
    fun u => ?_, by decide⟩
  · cases sym <;> cases h <;> rfl
  · cases u <;> rfl

end Sys2Proof.Proofs

/-! Proofs about the rows' results and frames (R121 to R129, R171 to R174, R220). -/

namespace Sys2Proof.Machine

open Sys2Proof.Safety

/-! The rows over a function of the state, in the form of the lemma that says when each has a next state. -/

theorem exec_idleUnlocked (s : State) : exec .idleUnlocked s = inPhase .unlocked .ignored (fun t => t) s := rfl

theorem exec_idleLocked (s : State) : exec .idleLocked s = inPhase .locked .ignored (fun t => t) s := rfl

theorem exec_temperature (s : State) :
    exec .temperature s = onCompletedFrame 0 (fun r => emit (.reading (temperatureReading r))) s := rfl

theorem exec_humidity (s : State) :
    exec .humidity s = onCompletedFrame 14 (fun r => emit (.reading (humidityReading r))) s := rfl

/-! Where an interpreter row runs (R77, R161). -/

theorem onCompletedFrame_not_ready (kind : Nibble) (f : FieldRecord → State → State) (s : State)
    (h : frameReady s = false) : onCompletedFrame kind f s = .refused .frameNotComplete := by
  simp [onCompletedFrame, h]

theorem onCompletedFrame_other_kind (kind : Nibble) (f : FieldRecord → State → State) (s : State)
    (h : frameReady s = true) (hkind : (decodeFields s.buf).measureKind ≠ kind) :
    onCompletedFrame kind f s = .refused (.kindNotSelected kind (decodeFields s.buf).measureKind) := by
  simp only [onCompletedFrame, h, ite_true, hkind, ite_false]

theorem exec_unrecognized_of_ne (kind : Nibble) (s : State) (h0 : kind ≠ 0) (h14 : kind ≠ 14) :
    exec (.unrecognized kind) s = onCompletedFrame kind (fun _ t => t) s := by
  rw [exec, execUnrecognized, recognizedKind_of_ne kind h0 h14, if_neg Bool.false_ne_true]

theorem inPhase_of_ne (p : Phase) (sym : Symbol) (f : State → State) (s : State) (h : s.phase ≠ p) :
    inPhase p sym f s = .refused (.rowNotSelected p sym) := by
  rw [inPhase, if_neg h]

/-! What a row does to the state where it answers next. -/

/-- The next state of a row, wherever it has one (R121 to R128, R171 to R173, R220). -/
def rowEffect (i : Instr) (s : State) : State :=
  match i with
  | .lock => lockFrame s
  | .appendOne => appendBit true s
  | .appendZero => appendBit false s
  | .abort => releaseFrame s
  | .frameComplete => (s.setOut (s.out ++ frameEvents (decodeFields s.buf))).setPhase .unlocked
  | .reset => State.reset.setInputs s.inputs
  | .temperature => emit (.reading (temperatureReading (decodeFields s.buf))) s
  | .humidity => emit (.reading (humidityReading (decodeFields s.buf))) s
  | .idleUnlocked | .idleLocked | .unrecognized _ => s

theorem eq_rowEffect_of_exec (i : Instr) (s t : State) (h : exec i s = .next t) : t = rowEffect i s := by
  cases i with
  | lock | appendOne | appendZero | abort => exact ((inPhase_eq_next _ _ _ _ _).mp h).2.symm
  | idleUnlocked =>
    rw [exec_idleUnlocked, inPhase_eq_next] at h
    exact h.2.symm
  | idleLocked =>
    rw [exec_idleLocked, inPhase_eq_next] at h
    exact h.2.symm
  | temperature =>
    rw [exec_temperature, onCompletedFrame_eq_next] at h
    exact h.2.2.symm
  | humidity =>
    rw [exec_humidity, onCompletedFrame_eq_next] at h
    exact h.2.2.symm
  | reset =>
    cases h
    rfl
  | frameComplete =>
    cases hready : frameReady s with
    | true =>
      rw [exec, execFrameComplete_ready s hready] at h
      cases h
      rfl
    | false =>
      rw [exec, execFrameComplete_not_ready s hready] at h
      cases h
  | unrecognized kind =>
    rw [exec, execUnrecognized] at h
    split at h
    next => cases h
    next => exact ((onCompletedFrame_eq_next _ _ _ _).mp h).2.2.symm

/-- An append writes no cell but the one at the index (R51). -/
theorem cell_appendBit_of_ne (b : Bool) (s : State) (j : Nat) (hj : j ≠ s.bitIndex.toNat) :
    cell (appendBit b s).buf j = cell s.buf j := by
  rcases Nat.lt_or_ge s.bitIndex.toNat Config.packetLength with hroom | hfull
  · rw [appendBit_of_lt b s hroom, State.setBitIndex_buf, State.setBuf_buf, cell_setCell_ne _ _ _ _ hroom hj]
  · rw [appendBit_of_ge b s hfull]

/-- An append moves the index on by one, or leaves it (R125, R126). -/
theorem appendBit_bitIndex (b : Bool) (s : State) (h : (appendBit b s).bitIndex ≠ s.bitIndex) :
    (appendBit b s).bitIndex.toNat = s.bitIndex.toNat + 1 := by
  rcases Nat.lt_or_ge s.bitIndex.toNat Config.packetLength with hroom | hfull
  · rw [appendBit_of_lt b s hroom, State.setBitIndex_bitIndex, succ_toNat _ hroom]
  · rw [appendBit_of_ge b s hfull] at h
    exact absurd rfl h

/-- Clear, append and reset are the only rows that write the buffer (R51, R220). -/
theorem rowEffect_buf (i : Instr) (s : State) (hlock : i ≠ .lock) (hreset : i ≠ .reset) (hone : i ≠ .appendOne)
    (hzero : i ≠ .appendZero) : (rowEffect i s).buf = s.buf := by
  cases i with
  | lock => exact absurd rfl hlock
  | reset => exact absurd rfl hreset
  | appendOne => exact absurd rfl hone
  | appendZero => exact absurd rfl hzero
  | idleUnlocked | abort | idleLocked | frameComplete | temperature | humidity | unrecognized _ => rfl

/-- The rows that change the phase, and to what (R21). -/
theorem rowEffect_phase (i : Instr) (s : State) (h : (rowEffect i s).phase ≠ s.phase) :
    (i = .lock ∧ (rowEffect i s).phase = .locked) ∨
      ((i = .abort ∨ i = .frameComplete ∨ i = .reset) ∧ (rowEffect i s).phase = .unlocked) := by
  cases i with
  | lock => exact .inl ⟨rfl, rfl⟩
  | abort => exact .inr ⟨.inl rfl, rfl⟩
  | frameComplete => exact .inr ⟨.inr (.inl rfl), rfl⟩
  | reset => exact .inr ⟨.inr (.inr rfl), rfl⟩
  | appendOne | appendZero => exact absurd (appendBit_phase _ s) h
  | idleUnlocked | idleLocked | temperature | humidity | unrecognized _ => exact absurd rfl h

/-- The rows that change the index, and to what (R22). -/
theorem rowEffect_bitIndex (i : Instr) (s : State) (h : (rowEffect i s).bitIndex ≠ s.bitIndex) :
    ((i = .lock ∨ i = .reset) ∧ (rowEffect i s).bitIndex = 0) ∨
      ((i = .appendOne ∨ i = .appendZero) ∧ (rowEffect i s).bitIndex.toNat = s.bitIndex.toNat + 1) := by
  cases i with
  | lock => exact .inl ⟨.inl rfl, rfl⟩
  | reset => exact .inl ⟨.inr rfl, rfl⟩
  | appendOne => exact .inr ⟨.inl rfl, appendBit_bitIndex true s h⟩
  | appendZero => exact .inr ⟨.inr rfl, appendBit_bitIndex false s h⟩
  | abort | frameComplete | idleUnlocked | idleLocked | temperature | humidity | unrecognized _ => exact absurd rfl h

/-- The timestamp, the symbol and the queue are the edge step's, and no row's but RESET's (R100, R28). -/
theorem rowEffect_registers (i : Instr) (s : State) (h : i ≠ .reset) :
    (rowEffect i s).prevTs = s.prevTs ∧ (rowEffect i s).lastSym = s.lastSym ∧ (rowEffect i s).inputs = s.inputs := by
  cases i with
  | reset => exact absurd rfl h
  | appendOne | appendZero => exact ⟨appendBit_prevTs _ s, appendBit_lastSym _ s, appendBit_inputs _ s⟩
  | lock | abort | frameComplete | idleUnlocked | idleLocked | temperature | humidity | unrecognized _ =>
    exact ⟨rfl, rfl, rfl⟩

/-- Three rows put something out; the others but RESET leave the output as it is (R27). -/
theorem rowEffect_out (i : Instr) (s : State) (hreset : i ≠ .reset) (hframe : i ≠ .frameComplete)
    (htemp : i ≠ .temperature) (hhum : i ≠ .humidity) : (rowEffect i s).out = s.out := by
  cases i with
  | reset => exact absurd rfl hreset
  | frameComplete => exact absurd rfl hframe
  | temperature => exact absurd rfl htemp
  | humidity => exact absurd rfl hhum
  | appendOne | appendZero => exact appendBit_out _ s
  | lock | abort | idleUnlocked | idleLocked | unrecognized _ => rfl

/-- No row but RESET takes back what is already out (R27). -/
theorem prefix_rowEffect_out (i : Instr) (s : State) (h : i ≠ .reset) : s.out <+: (rowEffect i s).out := by
  cases i with
  | reset => exact absurd rfl h
  | frameComplete | temperature | humidity => exact List.prefix_append _ _
  | appendOne | appendZero => exact (appendBit_out _ s).symm ▸ List.prefix_rfl
  | lock | abort | idleUnlocked | idleLocked | unrecognized _ => exact List.prefix_rfl

/-- An append with room: the cell it writes and the index it leaves (R125, R126). -/
theorem appendBit_result (b : Bool) (s : State) (hroom : s.bitIndex.toNat < Config.packetLength) :
    cell (appendBit b s).buf s.bitIndex.toNat = b ∧ (appendBit b s).bitIndex.toNat = s.bitIndex.toNat + 1 := by
  rw [appendBit_of_lt b s hroom]
  exact ⟨cell_setCell_self _ _ _ hroom, succ_toNat _ hroom⟩

/-! Readings and their port word (R174, R81). -/

/-- A reading is TEMPERATURE's or HUMIDITY's (R177). -/
theorem interpret_eq_some (r : FieldRecord) (v : Reading) (h : interpret r = some v) :
    v = temperatureReading r ∨ v = humidityReading r := by
  unfold interpret at h
  split_ifs at h <;> cases h
  · exact .inl rfl
  · exact .inr rfl

theorem dv10_le (r : FieldRecord) : dv10 r ≤ 1665 :=
  dv10_le_of_digits_le r 15 (nibble_toNat_le _) (nibble_toNat_le _) (nibble_toNat_le _)

theorem humidityReading_eq (r : FieldRecord) : humidityReading r = ⟨.percent, 10 * dv10 r⟩ := rfl

/-- The low half of a reading's word is its value, where that fits 16 bits (R81). -/
theorem readingWord_value (v : Reading) (hlow : -2 ^ 15 ≤ v.value100) (hhigh : v.value100 < 2 ^ 15) :
    ((readingWord v).extractLsb' 0 16).toInt = v.value100 := by
  have hword : (readingWord v).extractLsb' 0 16 = BitVec.ofInt 16 v.value100 :=
    (BitVec.extractLsb'_append_eq_of_add_le le_rfl).trans BitVec.extractLsb'_eq_self
  rw [hword, BitVec.toInt_ofInt_eq_self (by decide) hlow hhigh]

/-- The top bits of a reading's word are its unit's code (R80, R81). -/
theorem readingWord_unit (v : Reading) : (readingWord v).extractLsb' 16 2 = unitCode v.unit :=
  (BitVec.extractLsb'_append_eq_of_le le_rfl).trans BitVec.extractLsb'_eq_self

/-- The range of the readings, and the steps their values go in (R174). -/
theorem interpret_range (r : FieldRecord) (v : Reading) (h : interpret r = some v) :
    -5800 ≤ v.value100 ∧ v.value100 ≤ 24170 ∧
      (v.unit = .fahrenheit ∧ v.value100 % 2 = 0 ∨ v.unit = .percent ∧ v.value100 % 10 = 0) := by
  have hnonneg := dv10_nonneg r
  have hle := dv10_le r
  obtain rfl | rfl := interpret_eq_some r v h
  · rw [temperatureReading_eq]
    refine ⟨?_, ?_, .inl ⟨rfl, ?_⟩⟩ <;> dsimp only <;> omega
  · rw [humidityReading_eq]
    refine ⟨?_, ?_, .inr ⟨rfl, ?_⟩⟩ <;> dsimp only <;> omega

end Sys2Proof.Machine

namespace Sys2Proof.Proofs

open Sys2Proof.Machine Sys2Proof.Safety

/-- Settles O16: with room the append writes one cell and moves the index on, and at a full buffer its guard holds it back. -/
theorem appendResult : Obligations.AppendResult := by
  unfold Obligations.AppendResult
  intro s i b hrow hlocked
  have hexec : exec i s = .next (appendBit b s) := by
    obtain ⟨rfl, rfl⟩ | ⟨rfl, rfl⟩ := hrow <;> exact inPhase_of_phase _ _ _ s hlocked
  refine ⟨fun hroom => ?_, fun hfull => ?_⟩
  · obtain ⟨hcell, hindex⟩ := appendBit_result b s hroom
    exact ⟨_, hexec, hcell, cell_appendBit_of_ne b s, hindex, appendBit_phase b s, appendBit_prevTs b s,
      appendBit_lastSym b s, appendBit_inputs b s, appendBit_out b s⟩
  · rw [hexec, appendBit_of_ge b s hfull]

/-- Settles O19: the check holds, and the row's next state is known. -/
theorem frameCompleteResult : Obligations.FrameCompleteResult := by
  unfold Obligations.FrameCompleteResult
  intro s hlocked hindex
  exact ⟨_, execFrameComplete_ready s ((frameReady_iff s).mpr ⟨hlocked, hindex⟩), rfl, rfl, rfl, fun _ => rfl, rfl, rfl,
    rfl⟩

/-- Settles O27, by the rows. -/
theorem bufferWrites : Obligations.BufferWrites := by
  unfold Obligations.BufferWrites
  intro i s t h
  obtain rfl := eq_rowEffect_of_exec i s t h
  refine ⟨?_, ?_, ?_, fun hlock hreset hone hzero j => ?_⟩
  · rintro rfl
    exact cell_clearedBuffer
  · rintro rfl
    exact cell_clearedBuffer
  · rintro (rfl | rfl)
    · exact cell_appendBit_of_ne true s
    · exact cell_appendBit_of_ne false s
  · rw [rowEffect_buf i s hlock hreset hone hzero]

/-- Settles O28, by the rows. -/
theorem phaseAndIndexWrites : Obligations.PhaseAndIndexWrites := by
  unfold Obligations.PhaseAndIndexWrites
  intro i s t h
  obtain rfl := eq_rowEffect_of_exec i s t h
  exact ⟨rowEffect_phase i s, rowEffect_bitIndex i s⟩

/-- Settles O29, by the rows. -/
theorem rowsKeepTheStepsRegisters : Obligations.RowsKeepTheStepsRegisters := by
  unfold Obligations.RowsKeepTheStepsRegisters
  intro i s t hreset h
  obtain rfl := eq_rowEffect_of_exec i s t h
  obtain ⟨hts, hsym, hin⟩ := rowEffect_registers i s hreset
  exact ⟨hts, hsym, hin, prefix_rowEffect_out i s hreset, rowEffect_out i s hreset⟩

/-- Settles O31: the decimal value's range bounds both readings, well within 16 bits. -/
theorem readingsFitTheirPort : Obligations.ReadingsFitTheirPort := by
  unfold Obligations.ReadingsFitTheirPort
  intro r v h
  obtain ⟨hlow, hhigh, hunit⟩ := interpret_range r v h
  exact ⟨hlow, hhigh, hunit, readingWord_value v (by omega) (by omega), readingWord_unit v⟩

/-- Settles O15: LOCK is selected, and it clears the frame. -/
theorem lockResult : Obligations.LockResult := by
  unfold Obligations.LockResult
  intro s hunlocked
  exact ⟨_, inPhase_of_phase _ _ lockFrame s hunlocked, rfl, rfl, cell_clearedBuffer, rfl, rfl, rfl, rfl⟩

/-- Settles O17: ABORT is selected, and it releases the frame. -/
theorem abortResult : Obligations.AbortResult := by
  unfold Obligations.AbortResult
  intro s hlocked
  exact ⟨_, inPhase_of_phase _ _ releaseFrame s hlocked, rfl, rfl, fun _ => rfl, rfl, rfl, rfl, rfl⟩

/-- Settles O18: each idle row is selected in its own phase. -/
theorem idleRowsResult : Obligations.IdleRowsResult :=
  ⟨inPhase_of_phase _ _ _, inPhase_of_phase _ _ _⟩

/-- Settles O21: the completed frame is of HUMIDITY's kind. -/
theorem humidityResult : Obligations.HumidityResult := by
  unfold Obligations.HumidityResult
  intro s hlocked hindex hkind
  rw [exec_humidity, onCompletedFrame_eq_next]
  exact ⟨(frameReady_iff s).mpr ⟨hlocked, hindex⟩, hkind, rfl⟩

/-- Settles O22: the completed frame is of the row's kind. -/
theorem unrecognizedResult : Obligations.UnrecognizedResult := by
  unfold Obligations.UnrecognizedResult
  intro s kind h0 h14 hlocked hindex hkind
  rw [exec_unrecognized_of_ne kind s h0 h14, onCompletedFrame_eq_next]
  exact ⟨(frameReady_iff s).mpr ⟨hlocked, hindex⟩, hkind, rfl⟩

/-- Settles O23: RESET's next state is the reset state with the host's queue. -/
theorem resetResult : Obligations.ResetResult := by
  unfold Obligations.ResetResult
  intro s
  exact ⟨_, rfl, rfl, rfl, cell_clearedBuffer, rfl, rfl, rfl, rfl⟩

/-- Settles O25: each of the rows is selected in the other phase only. -/
theorem rowsRefusedInTheOtherPhase : Obligations.RowsRefusedInTheOtherPhase := by
  unfold Obligations.RowsRefusedInTheOtherPhase
  intro s
  refine ⟨fun hunlocked => ?_, fun hlocked => ?_⟩
  · have hne : s.phase ≠ .locked := by simp [hunlocked]
    rw [exec_idleLocked]
    exact ⟨inPhase_of_ne _ _ _ s hne, inPhase_of_ne _ _ _ s hne, inPhase_of_ne _ _ _ s hne, inPhase_of_ne _ _ _ s hne⟩
  · have hne : s.phase ≠ .unlocked := by simp [hlocked]
    rw [exec_idleUnlocked]
    exact ⟨inPhase_of_ne _ _ _ s hne, inPhase_of_ne _ _ _ s hne⟩

/-- Settles O26: each of the rows asks for a complete frame first. -/
theorem partialFrameNeverDecoded : Obligations.PartialFrameNeverDecoded := by
  unfold Obligations.PartialFrameNeverDecoded
  intro s hpending
  have hready : frameReady s = false := (frameReady_eq_false_iff s).mpr hpending
  rw [exec_temperature, exec_humidity]
  exact ⟨execFrameComplete_not_ready s hready, onCompletedFrame_not_ready _ _ s hready,
    onCompletedFrame_not_ready _ _ s hready, fun kind h0 h14 =>
      (exec_unrecognized_of_ne kind s h0 h14).trans (onCompletedFrame_not_ready _ _ s hready)⟩

/-- Settles O52: on a complete frame each row asks for its own kind. -/
theorem interpreterRowsRefuseOtherKinds : Obligations.InterpreterRowsRefuseOtherKinds := by
  unfold Obligations.InterpreterRowsRefuseOtherKinds
  refine ⟨fun s hlocked hindex => ?_, fun s => ⟨rfl, rfl⟩⟩
  have hready : frameReady s = true := (frameReady_iff s).mpr ⟨hlocked, hindex⟩
  rw [exec_temperature, exec_humidity]
  exact ⟨onCompletedFrame_other_kind _ _ s hready, onCompletedFrame_other_kind _ _ s hready, fun row h0 h14 hkind =>
    (exec_unrecognized_of_ne row s h0 h14).trans (onCompletedFrame_other_kind _ _ s hready hkind)⟩

end Sys2Proof.Proofs
